-- ==== Sys2Proof/Word.lean ====
section
/-! DEFINITION. The word type of the block's byte spaces. All other values are written `BitVec n` with the width the spec
gives them; every multi-bit value is unsigned (00_scope.md R8, R9, R11). -/

namespace Sys2Proof

/-- A byte of the input stream or of a payload image (20_memory.md R40, R47). -/
abbrev Byte := BitVec 8

end Sys2Proof
end

