-- ==== Sys2Proof/Config.lean ====
section
/-! DEFINITION. The parameters of 00_scope.md R6 with the constraints of R7. Every OPEN parameter is an opaque constant
without a body: nothing can be proved of it but its constraint. -/

namespace Sys2Proof

/-- `BYTE_ORDER` of R6 (20_memory.md R43). -/
inductive ByteOrder
  | little
  | big
  deriving DecidableEq, Repr

/-- `EB_FB_EMPTY_POLICY` of R6 (42_eventbuilder.md R132). -/
inductive FbPolicy
  | drop
  | carry
  deriving DecidableEq, Repr

/-- A capacity of R6: `inf`, or a natural number. -/
inductive Cap
  | inf
  | upTo (n : Nat)
  deriving DecidableEq, Repr

/-- The sink's answer to one `SinkWrite` (00_scope.md R13). -/
inductive Answer
  | ok
  | fail
  deriving DecidableEq, Repr, Inhabited

/-- The four tag parameters of R6. -/
structure Tags where
  frameStart : BitVec 6
  frameSize : BitVec 6
  leading : BitVec 6
  trailing : BitVec 6
  deriving DecidableEq, Repr

/-- R7 item 1: the four tags are pairwise distinct. -/
abbrev Tags.distinct (t : Tags) : Prop :=
  [t.frameStart, t.frameSize, t.leading, t.trailing].Nodup

/-- The parameters of R6 that are data and are no strap. `FSIZE_PAYLOAD`, a function, is `Config.fsizeHigh`; the straps
`NCHAN`, `DT` and `SID_INIT` are `Config.nchan`, `Config.dt`, `Config.sidInit`. -/
structure Params where
  tags : Tags
  byteOrder : ByteOrder
  eventType : BitVec 32
  eventBarrier : BitVec 32
  toCap : Cap
  ebCap : Cap
  fbPolicy : FbPolicy
  deriving DecidableEq, Repr

/-- The constraints of R7 items 1 and 3. Item 2 holds by the form of `Sys2Proof.fsizePayload`. -/
abbrev Params.ok (p : Params) : Prop :=
  p.tags.distinct ∧ p.ebCap ≠ .upTo 0

/-- A parameter set that satisfies R7. The field defaults only show that there is one (Lean asks for it before it takes an
opaque constant of this type); no value of an opaque constant can be learnt from them. -/
structure CheckedParams where
  val : Params := ⟨⟨0, 1, 2, 3⟩, .little, 0, 0, .inf, .inf, .drop⟩
  ok : val.ok := by decide
  deriving Inhabited

/-- The parameters of the instance (R6, OPEN): any set that satisfies R7. Log entry 3. -/
opaque Config.params : CheckedParams

/-- The upper 38 bits of `FSIZE_PAYLOAD` (R6, OPEN; decision D7). The lower 20 are the operand, which is all that R7 item 2
says of them. Log entry 4. -/
opaque Config.fsizeHigh : BitVec 20 → BitVec 38

/-- The strap `NCHAN` at the reset that makes the instance (R6, OPEN): an integer 0 to 32768. Log entry 3. -/
opaque Config.nchan : Fin 32769

/-- The strap `DT` at the reset that makes the instance (R6, OPEN). Log entry 3. -/
opaque Config.dt : BitVec 64

/-- The strap `SID_INIT` at the reset that makes the instance (R6, OPEN). Log entry 3. -/
opaque Config.sidInit : BitVec 32

/-- What the sink will answer before any input has said so (00_scope.md R13: unconstrained). Log entry 5. -/
opaque Config.sinkAnswer : Answer

end Sys2Proof
end

