-- ==== Sys2Proof/Syntax.lean ====
section
/-! DEFINITION. The instructions: the nine commands of 30_encoding.md R77 and the five data words of R60 to R64, one
constructor for each row of spec/opcode_table.json. -/

namespace Sys2Proof

/-- `Dir` of 00_scope.md R11: the edge direction. -/
inductive Dir
  | leading
  | trailing
  deriving DecidableEq, Repr

/-- `Datum` of 00_scope.md R11, every field at its declared width (40_wordcodec.md R102). -/
inductive Datum
  | frameStart (frameNumber : BitVec 24) (timeOffset : BitVec 16)
  | frameSize (dataSize : BitVec 20)
  | edge (direction : Dir) (channel : BitVec 7) (tot : BitVec 22) (time : BitVec 29)
  | unrecognized (word : BitVec 64)
  deriving DecidableEq, Repr

/-- One constructor for each row of the opcode table. -/
inductive Instr
  /-- `WC.DEC word` (40_wordcodec.md R90). -/
  | wcDec (word : BitVec 64)
  /-- `WC.ENC datum` (40_wordcodec.md R95). -/
  | wcEnc (datum : Datum)
  /-- `TO.ADD dir, chan, time, tot` (41_timeorderer.md R110). -/
  | toAdd (dir : Dir) (chan : BitVec 15) (time : BitVec 64) (tot : BitVec 32)
  /-- `TO.MERGE` (41_timeorderer.md R111). -/
  | toMerge
  /-- `EB.ADD dir, chan, time, tot` (42_eventbuilder.md R131). -/
  | ebAdd (dir : Dir) (chan : BitVec 15) (time : BitVec 64) (tot : BitVec 32)
  /-- `EB.FB frame` (42_eventbuilder.md R132). -/
  | ebFb (frame : BitVec 64)
  /-- `EB.FLUSH` (42_eventbuilder.md R133). -/
  | ebFlush
  /-- `EB.WRITE rec` (42_eventbuilder.md R134); the record stands on the record-input port. -/
  | ebWrite
  /-- `EB.SETSID id` (42_eventbuilder.md R135). -/
  | ebSetsid (sid : BitVec 32)
  /-- A FrameStart word of the input stream (30_encoding.md R61). -/
  | frameStart (frameNumber : BitVec 24) (timeOffset : BitVec 16)
  /-- A FrameSize word of the input stream (30_encoding.md R62). -/
  | frameSize (dataSize : BitVec 20)
  /-- An Edge word with the tag `TAG_LEADING` (30_encoding.md R63). -/
  | edgeLeading (channel : BitVec 7) (tot : BitVec 22) (time : BitVec 29)
  /-- An Edge word with the tag `TAG_TRAILING` (30_encoding.md R63). -/
  | edgeTrailing (channel : BitVec 7) (tot : BitVec 22) (time : BitVec 29)
  /-- A word with none of the four tags (30_encoding.md R64). -/
  | unrecognized (word : BitVec 64)
  deriving DecidableEq, Repr

end Sys2Proof
end

