-- ==== Sys2Proof/WellFormed.lean ====
section
/-! DEFINITION. Which instructions and data are well formed. All operands stand at their exact widths, so the one check left
is that an Unrecognized word carries none of the four tags (30_encoding.md R64, 40_wordcodec.md R99). -/

namespace Sys2Proof

/-- Is the tag of this word, bits [63:58], one of the four recognised tags (30_encoding.md R60)? -/
def Tags.recognises (t : Tags) (w : BitVec 64) : Bool :=
  [t.frameStart, t.frameSize, t.leading, t.trailing].contains (w.extractLsb' 58 6)

/-- The data that decode can produce, "valid" in the sense of 40_wordcodec.md R99. -/
def Datum.valid (t : Tags) : Datum → Bool
  | .frameStart _ _ => true
  | .frameSize _ => true
  | .edge _ _ _ _ => true
  | .unrecognized w => !t.recognises w

/-- The instructions that some bits encode. `WC.ENC` accepts every datum (decision D27). -/
def Instr.wellFormed (t : Tags) : Instr → Bool
  | .wcDec _ => true
  | .wcEnc _ => true
  | .toAdd _ _ _ _ => true
  | .toMerge => true
  | .ebAdd _ _ _ _ => true
  | .ebFb _ => true
  | .ebFlush => true
  | .ebWrite => true
  | .ebSetsid _ => true
  | .frameStart _ _ => true
  | .frameSize _ => true
  | .edgeLeading _ _ _ => true
  | .edgeTrailing _ _ _ => true
  | .unrecognized w => !t.recognises w

end Sys2Proof
end

