-- ==== Sys2Proof/Decode.lean ====
section
/-! DEFINITION. Bit fields (30_encoding.md R66), the word codec's two functions (40_wordcodec.md R90 to R98), the datum
register (30_encoding.md R75), the command descriptor (R76 to R78) with its decoder, and the encoder. Decoding is total and
rejects by name (R81). -/

namespace Sys2Proof

/-! ## Bit fields -/

/-- `w[lo+len-1 : lo]` (R66). -/
def slice {n : Nat} (w : BitVec n) (lo len : Nat) : BitVec len :=
  w.extractLsb' lo len

/-- `zext_n(f) << lo` (R66). -/
def place (n : Nat) {k : Nat} (f : BitVec k) (lo : Nat) : BitVec n :=
  f.setWidth n <<< lo

/-- The bit of a direction (00_scope.md R11). -/
def Dir.bit : Dir → BitVec 1
  | .leading => 0
  | .trailing => 1

/-- The direction of a bit (00_scope.md R11). -/
def Dir.ofBit (b : BitVec 1) : Dir :=
  if b = 0 then .leading else .trailing

/-! ## The 64-bit tagged word -/

/-- `decode_frame_start` (40_wordcodec.md R91). -/
def decodeFrameStart (w : BitVec 64) : Datum :=
  .frameStart (slice w 0 24) (slice w 24 16)

/-- `decode_frame_size` (40_wordcodec.md R92). -/
def decodeFrameSize (w : BitVec 64) : Datum :=
  .frameSize (slice w 0 20)

/-- `decode_edge` (40_wordcodec.md R93). -/
def decodeEdge (d : Dir) (w : BitVec 64) : Datum :=
  .edge d (slice w 51 7) (slice w 29 22) (slice w 0 29)

/-- `decode(word)` (40_wordcodec.md R90): dispatch on the tag alone. -/
def datumOfWord (t : Tags) (w : BitVec 64) : Datum :=
  if slice w 58 6 = t.frameStart then decodeFrameStart w
  else if slice w 58 6 = t.frameSize then decodeFrameSize w
  else if slice w 58 6 = t.leading then decodeEdge .leading w
  else if slice w 58 6 = t.trailing then decodeEdge .trailing w
  else .unrecognized w

/-- `FSIZE_PAYLOAD(s)` (00_scope.md R6), its upper bits given by `hi`; its lower 20 bits are `s` (R7 item 2). -/
def fsizePayload (hi : BitVec 20 → BitVec 38) (s : BitVec 20) : BitVec 58 :=
  hi s ++ s

/-- The tag an Edge of this direction carries (30_encoding.md R63). -/
def Tags.edge (t : Tags) : Dir → BitVec 6
  | .leading => t.leading
  | .trailing => t.trailing

/-- `encode(datum)` (40_wordcodec.md R95 to R98). -/
def wordOfDatum (t : Tags) (hi : BitVec 20 → BitVec 38) : Datum → BitVec 64
  | .frameStart f o => place 64 t.frameStart 58 ||| place 64 o 24 ||| place 64 f 0
  | .frameSize s => place 64 t.frameSize 58 ||| place 64 (fsizePayload hi s) 0
  | .edge d c x tm => place 64 (t.edge d) 58 ||| place 64 c 51 ||| place 64 x 29 ||| place 64 tm 0
  | .unrecognized w => w

/-! ## The datum register -/

/-- The `kind` field of a datum register (R75). -/
def Datum.kind : Datum → BitVec 3
  | .frameStart _ _ => 0
  | .frameSize _ => 1
  | .edge .leading _ _ _ => 2
  | .edge .trailing _ _ _ => 3
  | .unrecognized _ => 4

/-- The `body` field of a datum register (R75). -/
def Datum.body : Datum → BitVec 64
  | .frameStart f o => place 64 o 24 ||| place 64 f 0
  | .frameSize s => place 64 s 0
  | .edge _ c x tm => place 64 c 51 ||| place 64 x 29 ||| place 64 tm 0
  | .unrecognized w => w

/-- The 67-bit datum register of a datum (R75). -/
def Datum.register (d : Datum) : BitVec 67 :=
  place 67 d.kind 64 ||| place 67 d.body 0

/-- The datum of a datum register; none where the register is not well formed (R75). -/
def datumOfRegister (r : BitVec 67) : Option Datum :=
  let body : BitVec 64 := slice r 0 64
  match (slice r 64 3).toNat with
  | 0 => if slice body 40 24 = 0 then some (decodeFrameStart body) else none
  | 1 => if slice body 20 44 = 0 then some (decodeFrameSize body) else none
  | 2 => if slice body 58 6 = 0 then some (decodeEdge .leading body) else none
  | 3 => if slice body 58 6 = 0 then some (decodeEdge .trailing body) else none
  | 4 => some (.unrecognized body)
  | _ => none

/-! ## The command descriptor -/

/-- The three units (00_scope.md R2), each with its own command port (R3). -/
inductive UnitId
  | wc
  | tord
  | eb
  deriving DecidableEq, Repr

/-- Bits [3:2] of `op` name the unit: 0 WC, 1 TO, 2 and 3 EB (R77). -/
def UnitId.ofBits (b : BitVec 2) : UnitId :=
  match b.toNat with
  | 0 => .wc
  | 1 => .tord
  | _ => .eb

/-- The nine operations (R77). -/
inductive Op
  | wcDec
  | wcEnc
  | toAdd
  | toMerge
  | ebAdd
  | ebFb
  | ebFlush
  | ebWrite
  | ebSetsid
  deriving DecidableEq, Repr

/-- The operation an `op` field selects; none for a reserved code (R77). -/
def Op.ofCode (c : BitVec 4) : Option Op :=
  match c.toNat with
  | 0x0 => some .wcDec
  | 0x1 => some .wcEnc
  | 0x4 => some .toAdd
  | 0x5 => some .toMerge
  | 0x8 => some .ebAdd
  | 0x9 => some .ebFb
  | 0xA => some .ebFlush
  | 0xB => some .ebWrite
  | 0xC => some .ebSetsid
  | _ => none

/-- The unit of an operation (R77). -/
def Op.unit : Op → UnitId
  | .wcDec => .wc
  | .wcEnc => .wc
  | .toAdd => .tord
  | .toMerge => .tord
  | .ebAdd => .eb
  | .ebFb => .eb
  | .ebFlush => .eb
  | .ebWrite => .eb
  | .ebSetsid => .eb

/-- The mask of an operation (R78). -/
def Op.mask : Op → BitVec 128
  | .wcDec => 0xFFFFFFFFFFFFFFFF0000000000000000
  | .wcEnc => 0xFFFFFFFFFFFFFFF80000000000000000
  | .toAdd => 0xF7FF8000000000000000000000000000
  | .toMerge => 0xFFFFFFFFFFFFFFFFFFFFFFFFFFFFFFFF
  | .ebAdd => 0xF7FF8000000000000000000000000000
  | .ebFb => 0xFFFFFFFFFFFFFFFF0000000000000000
  | .ebFlush => 0xFFFFFFFFFFFFFFFFFFFFFFFFFFFFFFFF
  | .ebWrite => 0xFFFFFFFFFFFFFFFFFFFFFFFFFFFFFFFF
  | .ebSetsid => 0xFFFFFFFFFFFFFFFFFFFFFFFF00000000

/-- The match value of an operation (R78). -/
def Op.pattern : Op → BitVec 128
  | .wcDec => 0x00000000000000000000000000000000
  | .wcEnc => 0x10000000000000000000000000000000
  | .toAdd => 0x40000000000000000000000000000000
  | .toMerge => 0x50000000000000000000000000000000
  | .ebAdd => 0x80000000000000000000000000000000
  | .ebFb => 0x90000000000000000000000000000000
  | .ebFlush => 0xA0000000000000000000000000000000
  | .ebWrite => 0xB0000000000000000000000000000000
  | .ebSetsid => 0xC0000000000000000000000000000000

/-- Why a descriptor names no operation of a unit (R81). -/
inductive Reject
  /-- A reserved `op`. -/
  | reservedOp
  /-- An `op` of another unit. -/
  | wrongUnit
  /-- A nonzero bit that must be 0. -/
  | reservedBits
  /-- A datum register for `WC.ENC` that is not well formed. -/
  | illFormedDatum
  deriving DecidableEq, Repr

/-- The operands of a descriptor that matches an operation's row (R78). -/
def operandsOf (op : Op) (d : BitVec 128) : Except Reject Instr :=
  match op with
  | .wcDec => .ok (.wcDec (slice d 0 64))
  | .wcEnc =>
    match datumOfRegister (slice d 0 67) with
    | some x => .ok (.wcEnc x)
    | none => .error .illFormedDatum
  | .toAdd => .ok (.toAdd (Dir.ofBit (slice d 123 1)) (slice d 96 15) (slice d 0 64) (slice d 64 32))
  | .toMerge => .ok .toMerge
  | .ebAdd => .ok (.ebAdd (Dir.ofBit (slice d 123 1)) (slice d 96 15) (slice d 0 64) (slice d 64 32))
  | .ebFb => .ok (.ebFb (slice d 0 64))
  | .ebFlush => .ok .ebFlush
  | .ebWrite => .ok .ebWrite
  | .ebSetsid => .ok (.ebSetsid (slice d 0 32))

/-- The command a descriptor names on the port of a unit (R78, R81). -/
def decodeCommand (u : UnitId) (d : BitVec 128) : Except Reject Instr :=
  match Op.ofCode (slice d 124 4) with
  | none => .error .reservedOp
  | some op =>
    if op.unit ≠ u then .error .wrongUnit
    else if d &&& op.mask ≠ op.pattern then .error .reservedBits
    else operandsOf op d

/-- The data word as an instruction of the input stream: one arm for each layout of R61 to R64. -/
def Datum.toInstr : Datum → Instr
  | .frameStart f o => .frameStart f o
  | .frameSize s => .frameSize s
  | .edge .leading c x tm => .edgeLeading c x tm
  | .edge .trailing c x tm => .edgeTrailing c x tm
  | .unrecognized w => .unrecognized w

/-- The instruction a word of the input stream is (R60). -/
def decodeWord (t : Tags) (w : BitVec 64) : Instr :=
  (datumOfWord t w).toInstr

/-- The bits of an instruction: a descriptor at the port of a unit, or a word of the input stream. -/
inductive Code
  | command (u : UnitId) (d : BitVec 128)
  | dataWord (w : BitVec 64)
  deriving DecidableEq, Repr

/-- The decoder: total, and rejecting by name. -/
def decode (t : Tags) : Code → Except Reject Instr
  | .command u d => decodeCommand u d
  | .dataWord w => .ok (decodeWord t w)

/-! ## The encoder -/

/-- A descriptor with the operands of a hit (R76). -/
def hitDescriptor (op : Op) (dir : Dir) (chan : BitVec 15) (time : BitVec 64) (tot : BitVec 32) : BitVec 128 :=
  op.pattern ||| place 128 dir.bit 123 ||| place 128 chan 96 ||| place 128 tot 64 ||| place 128 time 0

/-- The bits of an instruction (R76, R78, R96 to R98). -/
def encode (t : Tags) (hi : BitVec 20 → BitVec 38) : Instr → Code
  | .wcDec w => .command .wc (Op.wcDec.pattern ||| place 128 w 0)
  | .wcEnc x => .command .wc (Op.wcEnc.pattern ||| place 128 x.register 0)
  | .toAdd dir chan time tot => .command .tord (hitDescriptor .toAdd dir chan time tot)
  | .toMerge => .command .tord Op.toMerge.pattern
  | .ebAdd dir chan time tot => .command .eb (hitDescriptor .ebAdd dir chan time tot)
  | .ebFb f => .command .eb (Op.ebFb.pattern ||| place 128 f 0)
  | .ebFlush => .command .eb Op.ebFlush.pattern
  | .ebWrite => .command .eb Op.ebWrite.pattern
  | .ebSetsid sid => .command .eb (Op.ebSetsid.pattern ||| place 128 sid 0)
  | .frameStart f o => .dataWord (wordOfDatum t hi (.frameStart f o))
  | .frameSize s => .dataWord (wordOfDatum t hi (.frameSize s))
  | .edgeLeading c x tm => .dataWord (wordOfDatum t hi (.edge .leading c x tm))
  | .edgeTrailing c x tm => .dataWord (wordOfDatum t hi (.edge .trailing c x tm))
  | .unrecognized w => .dataWord w

/-! ## The opcode table's view -/

/-- The code of the bits of a table row: rows of 64 bits are words of the input stream, wider rows are descriptors at the
port of the unit their own `op` names (R77). Log entry 15. -/
def tableCode (nbits w : Nat) : Code :=
  if nbits ≤ 64 then .dataWord (BitVec.ofNat 64 w)
  else .command (UnitId.ofBits (slice (BitVec.ofNat 128 w) 126 2)) (BitVec.ofNat 128 w)

/-- The instruction the decoder reads from the bits of a table row, under the instance's own tags. -/
def decodeTableWord (nbits w : Nat) : Option Instr :=
  match decode Config.params.val.tags (tableCode nbits w) with
  | .ok i => some i
  | .error _ => none

end Sys2Proof
end

