-- ==== Sys2Proof/Machine/State.lean ====
section
/-! DEFINITION. The state of one instance (10_state.md R20 to R36) with the inputs that are still to be delivered to it, its
value after reset (R36), and the reasons a step can stop. Plain data throughout. -/

namespace Sys2Proof.Machine

/-! ## The data the units hold -/

/-- `Hit` of 00_scope.md R11. -/
structure Hit where
  dir : Dir
  chan : BitVec 15
  time : BitVec 64
  tot : BitVec 32
  deriving DecidableEq, Repr

/-- `Entry` of 00_scope.md R11 (30_encoding.md R71). -/
structure Entry where
  tagword : BitVec 16
  time : BitVec 64
  tot : BitVec 32
  deriving DecidableEq, Repr

/-- `Field` of 00_scope.md R11: a payload field of 16, 32 or 64 bits. -/
inductive Field
  | f16 (v : BitVec 16)
  | f32 (v : BitVec 32)
  | f64 (v : BitVec 64)
  deriving DecidableEq, Repr

/-- The fixed header of a record (30_encoding.md R72). -/
structure RecordHeader where
  timestamp : BitVec 64
  sourceId : BitVec 32
  barrierType : BitVec 32
  deriving DecidableEq, Repr

/-- `Record` of 00_scope.md R11 (30_encoding.md R72). -/
structure Record where
  type : BitVec 32
  header : Option RecordHeader
  payload : List Field
  deriving DecidableEq, Repr

/-- The recorded info of a fault, returned with the status (60_exceptions.md R160). -/
inductive Info
  /-- No info: status `OK`, `SINK_FAIL` or `ILLEGAL_OP`. -/
  | none
  /-- `CHAN_RANGE`: the offending `cmd.chan`. -/
  | chan (c : BitVec 15)
  /-- `ORDER`: the offending `cmd.time`. -/
  | time (t : BitVec 64)
  /-- `CAPACITY`: the count held. -/
  | count (n : Nat)
  deriving DecidableEq, Repr

/-! ## The units -/

/-- WC: its command operand register (10_state.md R21) and its result register (R33). No other state (R23). -/
structure WcState where
  cmd : BitVec 128
  status : BitVec 4
  datum : Datum
  word : BitVec 64
  deriving DecidableEq, Repr

/-- TO: R24 to R26, R29, with its command operand register (R21) and its result register (R33). -/
structure TordState where
  nchan : Fin 32769
  buckets : List (List Hit)
  cur : List Nat
  fault : BitVec 5
  cmd : BitVec 128
  status : BitVec 4
  info : Info
  hits : List Hit
  deriving DecidableEq, Repr

/-- EB: R27 to R32, with its command operand register and record-input port (R21) and its result register (R33). -/
structure EbState where
  isOpen : Bool
  startTime : BitVec 64
  entries : List Entry
  sid : BitVec 32
  dt : BitVec 64
  fault : BitVec 5
  cmd : BitVec 128
  recIn : Record
  status : BitVec 4
  info : Info
  deriving DecidableEq, Repr

/-- The sink of EB (00_scope.md R13): the records it was called with in call order, whether there is one
(70_reset_and_hazards.md R192 item 2), and the answer it will give next, an input (log entry 5). -/
structure SinkPort where
  trace : List Record
  attached : Bool
  answer : Answer
  deriving DecidableEq, Repr

/-- The input byte stream with the word assembler's read offset (20_memory.md R40, R41; 10_state.md R22). -/
structure InStream where
  bytes : List Byte
  offset : Nat
  deriving DecidableEq, Repr

/-- What the outside may do to the instance between two operations: present a command at a port (10_state.md R21; for EB
with the record-input port and the sink's answer), have the word assembler present the next word of the stream (20_memory.md
R41), give a new input stream, or reset a unit with its straps (70_reset_and_hazards.md R190, R192). -/
inductive HostEvent
  | wcCommand (cmd : BitVec 128)
  | tordCommand (cmd : BitVec 128)
  | ebCommand (cmd : BitVec 128) (recIn : Record) (answer : Answer)
  | nextWord
  | stream (bytes : List Byte)
  | resetTord (nchan : Fin 32769)
  | resetEb (dt : BitVec 64) (sidInit : BitVec 32) (attached : Bool)
  deriving DecidableEq, Repr

/-- The machine: the instance's parameters (00_scope.md R6), the three units, the sink, the input stream, and the inputs
still to be delivered, oldest first (log entry 1). -/
structure State where
  cfg : Params
  wc : WcState
  tord : TordState
  eb : EbState
  sink : SinkPort
  inp : InStream
  host : List HostEvent
  deriving DecidableEq, Repr

/-! ## Reset -/

/-- WC before its first command. R33 leaves the result register unspecified: DESIGN CHOICE, log entry 8. -/
def WcState.reset : WcState :=
  { cmd := 0, status := 0, datum := .unrecognized 0, word := 0 }

/-- TO after its reset with this strap (10_state.md R36). Command and result register: DESIGN CHOICE, log entry 8. -/
def TordState.reset (nchan : Fin 32769) : TordState :=
  { nchan := nchan
    buckets := List.replicate nchan.val []
    cur := List.replicate nchan.val 0
    fault := 0
    cmd := 0
    status := 0
    info := .none
    hits := [] }

/-- EB after its reset with these straps (10_state.md R36). `startTime`: DESIGN CHOICE, log entry 7. Command register, record
port and result register: DESIGN CHOICE, log entry 8. -/
def EbState.reset (dt : BitVec 64) (sidInit : BitVec 32) : EbState :=
  { isOpen := false
    startTime := 0
    entries := []
    sid := sidInit
    dt := dt
    fault := 0
    cmd := 0
    recIn := { type := 0, header := none, payload := [] }
    status := 0
    info := .none }

/-- The instance after reset (10_state.md R36), its boot duties done (70_reset_and_hazards.md R192), no input stream given
yet (log entry 10) and no input pending (log entry 1). -/
def State.reset : State :=
  { cfg := Config.params.val
    wc := WcState.reset
    tord := TordState.reset Config.nchan
    eb := EbState.reset Config.dt Config.sidInit
    sink := { trace := [], attached := true, answer := Config.sinkAnswer }
    inp := { bytes := [], offset := 0 }
    host := [] }

/-! ## Why a step stops -/

/-- The faults of the spec (60_exceptions.md R160) are no stops: each ends in a next state with a status code and a sticky
bit. One condition is left without any defined behaviour. -/
inductive Fault
  /-- An operation calls `SinkWrite` and EB has no sink: "no defined behaviour" (70_reset_and_hazards.md R192 item 2).
  Raised by EB.ADD where it flushes, EB.FLUSH while Open and EB.WRITE. Safe: the model stops. -/
  | noSink
  deriving DecidableEq, Repr

/-- Reasons for which an instruction has no meaning here. -/
inductive Refusal
  /-- The instruction has no meaning in this model yet. No arm of exec answers it. Safe. -/
  | notModelled (mnemonic : String)
  deriving DecidableEq, Repr

/-! ## Updates of one component -/

/-- The state with another WC. -/
def State.withWc (s : State) (x : WcState) : State := { s with wc := x }

/-- The state with another TO. -/
def State.withTord (s : State) (x : TordState) : State := { s with tord := x }

/-- The state with another EB. -/
def State.withEb (s : State) (x : EbState) : State := { s with eb := x }

/-- The state with another sink. -/
def State.withSink (s : State) (x : SinkPort) : State := { s with sink := x }

/-- The state with another input stream. -/
def State.withInp (s : State) (x : InStream) : State := { s with inp := x }

/-- The state with other pending inputs. -/
def State.withHost (s : State) (x : List HostEvent) : State := { s with host := x }

end Sys2Proof.Machine
end

