-- ==== Sys2Proof/Machine/Flags.lean ====
section
/-! DEFINITION. Status codes and the sticky FAULT registers (10_state.md R29, 60_exceptions.md R160), and how an operation
ends: with OK or with a fault (00_scope.md R12). -/

namespace Sys2Proof.Machine

/-- The statuses of 60_exceptions.md R160. Codes 6 to 15 are reserved and never produced. -/
inductive Status
  | ok
  | chanRange
  | order
  | sinkFail
  | capacity
  | illegalOp
  deriving DecidableEq, Repr

/-- The value of `res.status` (R160). -/
def Status.code : Status → BitVec 4
  | .ok => 0
  | .chanRange => 1
  | .order => 2
  | .sinkFail => 3
  | .capacity => 4
  | .illegalOp => 5

/-- The bit of a FAULT register: bit `k-1` for the fault of code `k` (10_state.md R29). -/
def Status.bit : Status → BitVec 5
  | .ok => 0b00000
  | .chanRange => 0b00001
  | .order => 0b00010
  | .sinkFail => 0b00100
  | .capacity => 0b01000
  | .illegalOp => 0b10000

/-- TO's operation ends with `OK`. -/
def okTord (s : State) : State :=
  s.withTord { s.tord with status := Status.ok.code, info := .none }

/-- `raise F(info)` in TO (00_scope.md R10, 60_exceptions.md R166): the status and the sticky bit, nothing else. -/
def raiseTord (f : Status) (info : Info) (s : State) : State :=
  s.withTord { s.tord with status := f.code, info := info, fault := s.tord.fault ||| f.bit }

/-- EB's operation ends with `OK`. -/
def okEb (s : State) : State :=
  s.withEb { s.eb with status := Status.ok.code, info := .none }

/-- `raise F(info)` in EB (00_scope.md R10, 60_exceptions.md R166): the status and the sticky bit, nothing else. -/
def raiseEb (f : Status) (info : Info) (s : State) : State :=
  s.withEb { s.eb with status := f.code, info := info, fault := s.eb.fault ||| f.bit }

/-- A command that names no operation of the unit (30_encoding.md R81, 60_exceptions.md R165). WC has no FAULT register. -/
def illegalOp : UnitId → State → State
  | .wc, s => s.withWc { s.wc with status := Status.illegalOp.code }
  | .tord, s => raiseTord .illegalOp .none s
  | .eb, s => raiseEb .illegalOp .none s

end Sys2Proof.Machine
end

