-- ==== Sys2Proof/Machine/Operands.lean ====
section
/-! DEFINITION. The operand forms: hits, entries, markers, records and their byte images, and the words of a byte stream
(20_memory.md R41, R47; 30_encoding.md R67 to R73). -/

namespace Sys2Proof.Machine

/-! ## Entries -/

/-- The edge-tag word (30_encoding.md R70). -/
def tagword (dir : Dir) (chan : BitVec 15) : BitVec 16 :=
  place 16 dir.bit 15 ||| place 16 chan 0

/-- The entry of a hit (30_encoding.md R71). -/
def entryOfHit (dir : Dir) (chan : BitVec 15) (time : BitVec 64) (tot : BitVec 32) : Entry :=
  { tagword := tagword dir chan, time := time, tot := tot }

/-- The FrameBoundaryMarker for a frame number (30_encoding.md R71). -/
def marker (frame : BitVec 64) : Entry :=
  { tagword := 0xFFFF, time := frame, tot := 0xFFFFFFFF }

/-- Has this entry the shape of a marker (10_state.md R35 item 6)? -/
def Entry.isMarker (e : Entry) : Bool :=
  e = marker e.time

/-- What 30_encoding.md R67 settles of the host's conversion of an Edge to a Hit. The addition is exact (00_scope.md R9):
none where the sum needs more than 64 bits. No step of the block calls this (log entry 17). -/
def hitOfEdge (base : BitVec 64) (dir : Dir) (channel : BitVec 7) (tot : BitVec 22) (time : BitVec 29) : Option Hit :=
  if base.toNat + time.toNat < 2 ^ 64 then
    some { dir := dir, chan := channel.setWidth 15, time := base + time.setWidth 64, tot := tot.setWidth 32 }
  else none

/-! ## Records -/

/-- The three payload fields of an entry (30_encoding.md R73). -/
def Entry.fields (e : Entry) : List Field :=
  [.f16 e.tagword, .f64 e.time, .f32 e.tot]

/-- The payload of an event record (30_encoding.md R73). -/
def payloadOf (es : List Entry) : List Field :=
  es.flatMap Entry.fields

/-- The bytes of a value of `n` bytes: byte `j` is `v[8j+7:8j]` under `little`, and the reverse under `big` (20_memory.md R47). -/
def valueBytes (order : ByteOrder) {w : Nat} (n : Nat) (v : BitVec w) : List Byte :=
  let bs := (List.range n).map fun j => slice v (8 * j) 8
  match order with
  | .little => bs
  | .big => bs.reverse

/-- The byte image of a payload field (20_memory.md R47). -/
def Field.bytes (order : ByteOrder) : Field → List Byte
  | .f16 v => valueBytes order 2 v
  | .f32 v => valueBytes order 4 v
  | .f64 v => valueBytes order 8 v

/-- The byte image of a record's payload: the fields one after the other, nothing between (20_memory.md R47). The
order is the instance's: `sinkBytes` gives it (R43). -/
def Record.payloadBytes (order : ByteOrder) (r : Record) : List Byte :=
  r.payload.flatMap (Field.bytes order)

/-! ## The words of a byte stream -/

/-- The word of 8 bytes, the one at the lowest offset first (20_memory.md R41). -/
def wordOfBytes (order : ByteOrder) (bs : List Byte) : BitVec 64 :=
  match order with
  | .little => bs.foldr (fun b acc => acc <<< 8 ||| b.setWidth 64) 0
  | .big => bs.foldl (fun acc b => acc <<< 8 ||| b.setWidth 64) 0

/-- The word at a byte offset, none where fewer than 8 bytes are left (20_memory.md R41, R42). -/
def wordAt (order : ByteOrder) (bytes : List Byte) (offset : Nat) : Option (BitVec 64) :=
  if offset + 8 ≤ bytes.length then some (wordOfBytes order ((bytes.drop offset).take 8)) else none

end Sys2Proof.Machine
end

