-- ==== Sys2Proof/Machine/Ops.lean ====
section
/-! DEFINITION. The shared operations of the units: the append and the merge of TO, the entry buffer, the record and the sink
of EB, the resets. A fault is taken by `raiseTord` and `raiseEb` of Flags.lean: the block has no trap entry and no return from
one (60_exceptions.md R169, R170). -/

namespace Sys2Proof.Machine

/-- Is a buffer that holds `n` elements full (00_scope.md R6, decision D12)? -/
def Cap.full : Cap → Nat → Bool
  | .inf, _ => false
  | .upTo c, n => c ≤ n

/-! ## WC -/

/-- `WC.DEC` ends with this datum (40_wordcodec.md R90). -/
def answerDatum (d : Datum) (s : State) : State :=
  s.withWc { s.wc with status := Status.ok.code, datum := d }

/-- `WC.ENC` ends with this word (40_wordcodec.md R95). -/
def answerWord (w : BitVec 64) (s : State) : State :=
  s.withWc { s.wc with status := Status.ok.code, word := w }

/-! ## TO -/

/-- `TO.bucket[c]` (10_state.md R24). -/
def bucketAt (buckets : List (List Hit)) (c : Nat) : List Hit :=
  buckets.getD c []

/-- The number of hits in the buckets `0 .. n-1` (41_timeorderer.md R110). -/
def heldHits (n : Nat) (buckets : List (List Hit)) : Nat :=
  ((List.range n).map fun c => (bucketAt buckets c).length).sum

/-- The hits of TO, counted as `TO.ADD` counts them. -/
def TordState.held (t : TordState) : Nat :=
  heldHits t.nchan.val t.buckets

/-- The body of `TO.ADD` (41_timeorderer.md R110). -/
def addHit (h : Hit) (s : State) : State :=
  if s.tord.nchan.val ≤ h.chan.toNat then raiseTord .chanRange (.chan h.chan) s
  else if Cap.full s.cfg.toCap s.tord.held then raiseTord .capacity (.count s.tord.held) s
  else
    okTord (s.withTord { s.tord with
      buckets := s.tord.buckets.set h.chan.toNat (bucketAt s.tord.buckets h.chan.toNat ++ [h]) })

/-- The head of channel `c` for a list of cursors (41_timeorderer.md R111); none where the cursor is at the end. -/
def headAt (buckets : List (List Hit)) (cur : List Nat) (c : Nat) : Option Hit :=
  (bucketAt buckets c)[cur.getD c 0]?

/-- One round of the scan (41_timeorderer.md R111): the head of `c` replaces the best so far only where its time is smaller. -/
def better (buckets : List (List Hit)) (cur : List Nat) (best : Option (Nat × Hit)) (c : Nat) : Option (Nat × Hit) :=
  match headAt buckets cur c, best with
  | none, b => b
  | some h, none => some (c, h)
  | some h, some (b, g) => if h.time < g.time then some (c, h) else some (b, g)

/-- The head that the scan over the channels `0 .. n-1` selects, with its channel (41_timeorderer.md R111). -/
def pickHead (n : Nat) (buckets : List (List Hit)) (cur : List Nat) : Option (Nat × Hit) :=
  (List.range n).foldl (better buckets cur) none

/-- Advance the cursor of a channel (41_timeorderer.md R111). The channel is the one the scan was at; that it is the emitted
hit's own `chan` is 10_state.md R24. DEDUCED, log entry 11. -/
def advance (cur : List Nat) (c : Nat) : List Nat :=
  cur.set c (cur.getD c 0 + 1)

/-- The emission loop (41_timeorderer.md R111), bounded: it runs once for each held hit (70_reset_and_hazards.md R204). -/
def mergeLoop (n : Nat) (buckets : List (List Hit)) : Nat → List Nat → List Hit
  | 0, _ => []
  | fuel + 1, cur =>
    match pickHead n buckets cur with
    | none => []
    | some (c, h) => h :: mergeLoop n buckets fuel (advance cur c)

/-- The hits of a merge in emission order, from cursors at 0. -/
def mergedHits (n : Nat) (buckets : List (List Hit)) : List Hit :=
  mergeLoop n buckets (heldHits n buckets) (List.replicate n 0)

/-- The body of `TO.MERGE` (41_timeorderer.md R111). -/
def mergeAll (s : State) : State :=
  okTord (s.withTord { s.tord with
    hits := mergedHits s.tord.nchan.val s.tord.buckets
    buckets := List.replicate s.tord.nchan.val []
    cur := List.replicate s.tord.nchan.val 0 })

/-! ## EB -/

/-- `event_record()` (42_eventbuilder.md R136). -/
def eventRecord (s : State) : Record :=
  { type := s.cfg.eventType
    header := some { timestamp := s.eb.startTime, sourceId := s.eb.sid, barrierType := s.cfg.eventBarrier }
    payload := payloadOf s.eb.entries }

/-- Append an entry, or raise `CAPACITY` with no other change (42_eventbuilder.md R131, R132). -/
def appendEntry (e : Entry) (s : State) : State :=
  if Cap.full s.cfg.ebCap s.eb.entries.length then raiseEb .capacity (.count s.eb.entries.length) s
  else okEb (s.withEb { s.eb with entries := s.eb.entries ++ [e] })

/-- The Empty to Open arm of `EB.ADD` (42_eventbuilder.md R131). -/
def openEvent (e : Entry) (s : State) : State :=
  if Cap.full s.cfg.ebCap s.eb.entries.length then raiseEb .capacity (.count s.eb.entries.length) s
  else okEb (s.withEb { s.eb with startTime := e.time, entries := s.eb.entries ++ [e], isOpen := true })

/-- The writes of a flush: the event is gone and EB is Empty (42_eventbuilder.md R131, R133). -/
def clearEvent (s : State) : State :=
  s.withEb { s.eb with entries := [], isOpen := false }

/-- The sink is called with a record (00_scope.md R13). -/
def pushRecord (r : Record) (s : State) : State :=
  s.withSink { s.sink with trace := s.sink.trace ++ [r] }

/-- The bytes of the records the sink was called with, one list for each record: the payload fields in the byte order of the
instance, the one that orders the input stream too (20_memory.md R43 (b), R47). -/
def sinkBytes (s : State) : List (List Byte) :=
  s.sink.trace.map (Record.payloadBytes s.cfg.byteOrder)

/-- `if SinkWrite(r) = fail: raise SINK_FAIL`, then the rest of the operation (00_scope.md R10, 60_exceptions.md R163). An EB
without a sink has no defined behaviour here (70_reset_and_hazards.md R192 item 2): DESIGN CHOICE fault, log entry 6. -/
def sinkWrite (r : Record) (s : State) (rest : State → State) : Host.Outcome State Fault Refusal :=
  match s.sink.attached with
  | false => .fault .noSink
  | true =>
    .next (match s.sink.answer with
      | .fail => raiseEb .sinkFail .none (pushRecord r s)
      | .ok => rest (pushRecord r s))

/-- A flush of an Open event, then the rest of the operation (42_eventbuilder.md R131, R133). -/
def flushThen (s : State) (rest : State → State) : Host.Outcome State Fault Refusal :=
  sinkWrite (eventRecord s) (clearEvent s) rest

/-- The arms of `EB.ADD` (42_eventbuilder.md R130, R131). -/
inductive AddArm
  | opening
  | early
  | inside
  | overflow
  deriving DecidableEq, Repr

/-- Which arm of `EB.ADD` a time takes (42_eventbuilder.md R131). The difference is evaluated only where it is exact. -/
def addArm (eb : EbState) (time : BitVec 64) : AddArm :=
  match eb.isOpen with
  | false => .opening
  | true =>
    if time < eb.startTime then .early
    else if time - eb.startTime ≤ eb.dt then .inside
    else .overflow

/-! ## Reset -/

/-- Reset of TO (70_reset_and_hazards.md R190, R191): held hits are discarded. -/
def resetTord (nchan : Fin 32769) (s : State) : State :=
  s.withTord (TordState.reset nchan)

/-- Reset of EB (70_reset_and_hazards.md R190, R191): held entries are discarded and no record goes to the sink. The sink
is handed over anew or not at all, and its trace starts empty (10_state.md R36): DEDUCED, log entry 9. -/
def resetEb (dt : BitVec 64) (sidInit : BitVec 32) (attached : Bool) (s : State) : State :=
  (s.withEb (EbState.reset dt sidInit)).withSink { s.sink with trace := [], attached := attached }

/-! ## The form of the data spaces -/

/-- The form of the data spaces between operations (20_memory.md R40, R44; 10_state.md R24, R25, R35 item 1): BKT has one
bucket and one cursor for each channel below NCHAN, every cursor is 0, every hit stands in the bucket of its own channel, and
the read offset of IN is a multiple of 8 inside the stream. -/
abbrev Memory.wf (s : State) : Prop :=
  s.tord.buckets.length = s.tord.nchan.val ∧
  s.tord.cur = List.replicate s.tord.nchan.val 0 ∧
  (∀ c < s.tord.buckets.length, ∀ h ∈ bucketAt s.tord.buckets c, h.chan.toNat = c) ∧
  s.inp.offset ≤ s.inp.bytes.length ∧ s.inp.offset % 8 = 0

end Sys2Proof.Machine
end

