-- ==== Sys2Proof/Machine/EventBuilder.lean ====
section
/-! DEFINITION. EB, the coincidence-window event accumulator (42_eventbuilder.md). -/

namespace Sys2Proof.Machine

/-- `EB.ADD dir, chan, time, tot` (R131). After a flush that the sink took, EB is Empty with no entries and the hit is
accumulated as in the Empty arm. -/
def execEbAdd (dir : Dir) (chan : BitVec 15) (time : BitVec 64) (tot : BitVec 32) (s : State) :
    Host.Outcome State Fault Refusal :=
  match addArm s.eb time with
  | .opening => .next (openEvent (entryOfHit dir chan time tot) s)
  | .early => .next (raiseEb .order (.time time) s)
  | .inside => .next (appendEntry (entryOfHit dir chan time tot) s)
  | .overflow =>
    flushThen s fun s' =>
      okEb (s'.withEb { s'.eb with startTime := time, entries := [entryOfHit dir chan time tot], isOpen := true })

/-- `EB.FB frame` (R132). -/
def execEbFb (frame : BitVec 64) (s : State) : Host.Outcome State Fault Refusal :=
  .next (if s.eb.isOpen = false ∧ s.cfg.fbPolicy = .drop then okEb s else appendEntry (marker frame) s)

/-- `EB.FLUSH` (R133). -/
def execEbFlush (s : State) : Host.Outcome State Fault Refusal :=
  match s.eb.isOpen with
  | false => .next (okEb s)
  | true => flushThen s okEb

/-- `EB.WRITE rec` (R134): the record on the record-input port is forwarded unchanged. -/
def execEbWrite (s : State) : Host.Outcome State Fault Refusal :=
  sinkWrite s.eb.recIn s okEb

/-- `EB.SETSID id` (R135). -/
def execEbSetsid (sid : BitVec 32) (s : State) : Host.Outcome State Fault Refusal :=
  .next (okEb (s.withEb { s.eb with sid := sid }))

end Sys2Proof.Machine
end

