-- ==== Sys2Proof/Machine/TimeOrderer.lean ====
section
/-! DEFINITION. TO, the time-ordered merge engine (41_timeorderer.md). -/

namespace Sys2Proof.Machine

/-- `TO.ADD dir, chan, time, tot` (R110). -/
def execToAdd (dir : Dir) (chan : BitVec 15) (time : BitVec 64) (tot : BitVec 32) (s : State) :
    Host.Outcome State Fault Refusal :=
  .next (addHit { dir := dir, chan := chan, time := time, tot := tot } s)

/-- `TO.MERGE` (R111). -/
def execToMerge (s : State) : Host.Outcome State Fault Refusal :=
  .next (mergeAll s)

end Sys2Proof.Machine
end

