-- ==== Sys2Proof/Machine/WordCodec.lean ====
section
/-! DEFINITION. WC: the two commands and the five data words of the input stream (40_wordcodec.md). -/

namespace Sys2Proof.Machine

/-- `WC.DEC word` (R90 to R94). -/
def execWcDec (word : BitVec 64) (s : State) : Host.Outcome State Fault Refusal :=
  .next (answerDatum (datumOfWord s.cfg.tags word) s)

/-- `WC.ENC datum` (R95 to R98). -/
def execWcEnc (datum : Datum) (s : State) : Host.Outcome State Fault Refusal :=
  .next (answerWord (wordOfDatum s.cfg.tags Config.fsizeHigh datum) s)

/-- A FrameStart word is decoded by WC (R91, R103). The word assembler has moved past it already (Fetch.lean). -/
def execFrameStart (frameNumber : BitVec 24) (timeOffset : BitVec 16) (s : State) : Host.Outcome State Fault Refusal :=
  .next (answerDatum (.frameStart frameNumber timeOffset) s)

/-- A FrameSize word is decoded by WC (R92, R103). -/
def execFrameSize (dataSize : BitVec 20) (s : State) : Host.Outcome State Fault Refusal :=
  .next (answerDatum (.frameSize dataSize) s)

/-- A leading Edge word is decoded by WC (R93, R103). -/
def execEdgeLeading (channel : BitVec 7) (tot : BitVec 22) (time : BitVec 29) (s : State) :
    Host.Outcome State Fault Refusal :=
  .next (answerDatum (.edge .leading channel tot time) s)

/-- A trailing Edge word is decoded by WC (R93, R103). -/
def execEdgeTrailing (channel : BitVec 7) (tot : BitVec 22) (time : BitVec 29) (s : State) :
    Host.Outcome State Fault Refusal :=
  .next (answerDatum (.edge .trailing channel tot time) s)

/-- A word with an unknown tag decodes to Unrecognized, "not an error" (R94, R103). -/
def execUnrecognized (word : BitVec 64) (s : State) : Host.Outcome State Fault Refusal :=
  .next (answerDatum (.unrecognized word) s)

end Sys2Proof.Machine
end

