-- ==== Sys2Proof/Machine/Dispatch.lean ====
section
/-! DEFINITION. One arm per instruction. -/

namespace Sys2Proof.Machine

def exec (i : Instr) (s : State) : Host.Outcome State Fault Refusal :=
  match i with
  | .wcDec word => Sys2Proof.Machine.execWcDec word s
  | .wcEnc datum => Sys2Proof.Machine.execWcEnc datum s
  | .toAdd dir chan time tot => Sys2Proof.Machine.execToAdd dir chan time tot s
  | .toMerge => Sys2Proof.Machine.execToMerge s
  | .ebAdd dir chan time tot => Sys2Proof.Machine.execEbAdd dir chan time tot s
  | .ebFb frame => Sys2Proof.Machine.execEbFb frame s
  | .ebFlush => Sys2Proof.Machine.execEbFlush s
  | .ebWrite => Sys2Proof.Machine.execEbWrite s
  | .ebSetsid sid => Sys2Proof.Machine.execEbSetsid sid s
  | .frameStart frameNumber timeOffset => Sys2Proof.Machine.execFrameStart frameNumber timeOffset s
  | .frameSize dataSize => Sys2Proof.Machine.execFrameSize dataSize s
  | .edgeLeading channel tot time => Sys2Proof.Machine.execEdgeLeading channel tot time s
  | .edgeTrailing channel tot time => Sys2Proof.Machine.execEdgeTrailing channel tot time s
  | .unrecognized word => Sys2Proof.Machine.execUnrecognized word s

end Sys2Proof.Machine
end

