-- ==== Sys2Proof/Machine/Fetch.lean ====
section
/-! DEFINITION. How the next input reaches the block: the host's command registers are written, the word assembler takes 8
bytes, a unit is reset (10_state.md R20 to R22, 20_memory.md R41, R42, 70_reset_and_hazards.md R190). -/

namespace Sys2Proof.Machine

/-- What one input comes to: an instruction to run from a state, or a state in which the input is already dealt with. -/
inductive Fetched
  | run (i : Instr) (s : State)
  | done (s : State)
  deriving DecidableEq, Repr

/-- The host writes the command operand register of WC (10_state.md R20, R21). -/
def presentWc (d : BitVec 128) (s : State) : State :=
  s.withWc { s.wc with cmd := d }

/-- The host writes the command operand register of TO (10_state.md R20, R21). -/
def presentTord (d : BitVec 128) (s : State) : State :=
  s.withTord { s.tord with cmd := d }

/-- The host writes the command operand register of EB and presents a record on its record-input port (10_state.md R21); the
sink's answer is the step's input (00_scope.md R13). -/
def presentEb (d : BitVec 128) (r : Record) (a : Answer) (s : State) : State :=
  (s.withEb { s.eb with cmd := d, recIn := r }).withSink { s.sink with answer := a }

/-- A command that stands in the register of a unit: decoded, or refused (30_encoding.md R81). -/
def decodePresented (u : UnitId) (d : BitVec 128) (s : State) : Fetched :=
  match decodeCommand u d with
  | .ok i => .run i s
  | .error _ => .done (illegalOp u s)

/-- The word assembler presents a word of the stream to WC.DEC and moves 8 bytes on (20_memory.md R41, 10_state.md R22). -/
def presentWord (w : BitVec 64) (s : State) : State :=
  (presentWc (Op.wcDec.pattern ||| place 128 w 0) s).withInp { s.inp with offset := s.inp.offset + 8 }

/-- The next word of the stream, in the byte order of the instance (20_memory.md R43 (a)); at the end of the stream reading
simply stops (R41, R42). -/
def fetchWord (s : State) : Fetched :=
  match wordAt s.cfg.byteOrder s.inp.bytes s.inp.offset with
  | none => .done s
  | some w => .run (decodeWord s.cfg.tags w) (presentWord w s)

/-- Deliver one input. -/
def deliver (e : HostEvent) (s : State) : Fetched :=
  match e with
  | .wcCommand d => decodePresented .wc d (presentWc d s)
  | .tordCommand d => decodePresented .tord d (presentTord d s)
  | .ebCommand d r a => decodePresented .eb d (presentEb d r a s)
  | .nextWord => fetchWord s
  | .stream bytes => .done (s.withInp { bytes := bytes, offset := 0 })
  | .resetTord nchan => .done (resetTord nchan s)
  | .resetEb dt sidInit attached => .done (resetEb dt sidInit attached s)

/-- The next input, oldest first. With none pending nothing happens: "Nothing happens to the block except commands and
reset" (60_exceptions.md R168). Log entry 1. -/
def fetch (s : State) : Fetched :=
  match s.host with
  | [] => .done s
  | e :: rest => deliver e (s.withHost rest)

/-- Put the bits of an instruction where the next fetch finds them: a descriptor as the next command of its port, a word as
the whole input stream with the word assembler asked for it. Log entry 2. -/
def placeCode (c : Code) (s : State) : State :=
  match c with
  | .command .wc d => s.withHost (.wcCommand d :: s.host)
  | .command .tord d => s.withHost (.tordCommand d :: s.host)
  | .command .eb d => s.withHost (.ebCommand d s.eb.recIn s.sink.answer :: s.host)
  | .dataWord w =>
    (s.withInp { bytes := valueBytes s.cfg.byteOrder 8 w, offset := 0 }).withHost (.nextWord :: s.host)

end Sys2Proof.Machine
end

