-- ==== Sys2Proof/Machine/Step.lean ====
section
/-! DEFINITION. One step: deliver the next input and run the instruction it is, whole and at once (20_memory.md R45 item 4, R48). -/

namespace Sys2Proof.Machine

/-- One step of the machine. -/
def step (s : State) : Host.Outcome State Fault Refusal :=
  match fetch s with
  | .run i t => exec i t
  | .done t => .next t

/-- The state with the instruction of these bits as its next input. -/
def State.withFetchWord (s : State) (nbits w : Nat) : State :=
  placeCode (tableCode nbits w) s

end Sys2Proof.Machine
end

