-- ==== Sys2Proof/Safety.lean ====
section
/-! DEFINITION. What counts as a good run (00_scope.md R12, 60_exceptions.md R166), the invariants of 10_state.md R35, and the
duties of the host (70_reset_and_hazards.md) as predicates. -/

namespace Sys2Proof

/-- Is this a command of EB other than `EB.WRITE`? -/
def Instr.accumulates : Instr → Bool
  | .ebAdd _ _ _ _ => true
  | .ebFb _ => true
  | .ebFlush => true
  | .ebSetsid _ => true
  | _ => false

/-- The unit that runs an instruction (30_encoding.md R77); a word of the input stream goes to WC (20_memory.md R41). -/
def Instr.unit : Instr → UnitId
  | .wcDec _ => .wc
  | .wcEnc _ => .wc
  | .toAdd _ _ _ _ => .tord
  | .toMerge => .tord
  | .ebAdd _ _ _ _ => .eb
  | .ebFb _ => .eb
  | .ebFlush => .eb
  | .ebWrite => .eb
  | .ebSetsid _ => .eb
  | .frameStart _ _ => .wc
  | .frameSize _ => .wc
  | .edgeLeading _ _ _ => .wc
  | .edgeTrailing _ _ _ => .wc
  | .unrecognized _ => .wc

/-- The entry that a command offers to the accumulator, if it offers one (30_encoding.md R71). -/
def Instr.offered : Instr → List Machine.Entry
  | .ebAdd dir chan time tot => [Machine.entryOfHit dir chan time tot]
  | .ebFb frame => [Machine.marker frame]
  | _ => []

/-- Is this an `EB.FB`? -/
def Instr.isFb : Instr → Bool
  | .ebFb _ => true
  | _ => false

end Sys2Proof

namespace Sys2Proof.Machine

/-- No fault is recorded: the only states that count as a good end of a run (60_exceptions.md R166). -/
abbrev State.clean (s : State) : Prop :=
  s.tord.fault = 0 ∧ s.eb.fault = 0

/-- A count within a capacity of 00_scope.md R6. -/
abbrev Cap.holds (c : Cap) (n : Nat) : Prop :=
  match c with
  | .inf => True
  | .upTo m => n ≤ m

/-- A time inside the coincidence window that a hit at `start` opened (42_eventbuilder.md R131); all exact. -/
abbrev inWindow (start dt time : BitVec 64) : Prop :=
  start.toNat ≤ time.toNat ∧ time.toNat ≤ start.toNat + dt.toNat

/-- The entries of an Open event (10_state.md R35 items 3 and 4): the opening hit, whose time is `start`, preceded only by
markers, and under `drop` by nothing; every entry that is no marker by its shape is inside the window. -/
structure OpenEntries (policy : FbPolicy) (start dt : BitVec 64) (es : List Entry) : Prop where
  opener : ∃ pre e post, es = pre ++ e :: post ∧ e.time = start ∧ (∀ m ∈ pre, m.isMarker = true) ∧
    (policy = .drop → pre = [])
  window : ∀ e ∈ es, e.isMarker = true ∨ inWindow start dt e.time

/-- The invariants that hold between operations (10_state.md R35), with the unused FAULT bits of R29, the constraints of
00_scope.md R7 and the form of the data spaces. -/
structure State.Inv (s : State) : Prop where
  /-- 00_scope.md R7. -/
  params : s.cfg.ok
  /-- R35 item 1 and 20_memory.md R40, R44. -/
  spaces : Memory.wf s
  /-- R35 item 2, for TO. -/
  toCap : Cap.holds s.cfg.toCap s.tord.held
  /-- R35 item 2, for EB. -/
  ebCap : Cap.holds s.cfg.ebCap s.eb.entries.length
  /-- R35 items 3 and 4. -/
  openEvent : s.eb.isOpen = true → OpenEntries s.cfg.fbPolicy s.eb.startTime s.eb.dt s.eb.entries
  /-- R35 item 5. -/
  emptyDrop : s.eb.isOpen = false → s.cfg.fbPolicy = .drop → s.eb.entries = []
  /-- R35 item 6. -/
  emptyCarry : s.eb.isOpen = false → s.cfg.fbPolicy = .carry → ∀ e ∈ s.eb.entries, e.isMarker = true
  /-- R29: the bits ORDER and SINK_FAIL of TO.FAULT are always 0. -/
  toFault : s.tord.fault &&& 0b00110 = 0
  /-- R29: the bit CHAN_RANGE of EB.FAULT is always 0. -/
  ebFault : s.eb.fault &&& 0b00001 = 0

/-- Hits in an order of time that never goes back (70_reset_and_hazards.md R193, R194). -/
abbrev Nondecreasing (hs : List Hit) : Prop :=
  hs.Pairwise fun a b => a.time ≤ b.time

/-- The duty of 70_reset_and_hazards.md R194: every bucket of TO is non-decreasing in time. -/
abbrev monotoneBuckets (buckets : List (List Hit)) : Prop :=
  ∀ b ∈ buckets, Nondecreasing b

/-- A list of instructions, each with the answer that the sink gives during it, run one after the other. -/
def runAll : List (Answer × Instr) → State → Host.Outcome State Fault Refusal
  | [], s => .next s
  | (a, i) :: rest, s =>
    match exec i (s.withSink { s.sink with answer := a }) with
    | .next t => runAll rest t
    | .fault r => .fault r
    | .refused r => .refused r

/-- The times of the `EB.ADD` commands of a list, in order (42_eventbuilder.md R140). -/
def addTimes (is : List (Answer × Instr)) : List (BitVec 64) :=
  is.filterMap fun p =>
    match p.2 with
    | .ebAdd _ _ time _ => some time
    | _ => none

/-- The timestamp of a record's header. -/
def Record.timestamp (r : Record) : Option (BitVec 64) :=
  r.header.map (·.timestamp)

end Sys2Proof.Machine
end

