-- ==== Sys2Proof/Certificates/Slice0/Obligations.lean ====
section
/-! DEFINITION. The statements for the provers. A descriptor is written field by field as 30_encoding.md R76 lays it out, most
significant field first. "Room" in a buffer that holds n elements: every finite capacity is above n; "full": a finite
capacity is at most n (00_scope.md R6). The recorded info of an operation that ends OK is stated nowhere in the spec (log
entry 14): the statements leave it open, as some `x`. -/

open Sys2Proof Sys2Proof.Machine

/-! ## WC -/

/-- R90: WC.DEC at op 0x0 dispatches on the tag, answers the datum with status OK, and changes nothing else. -/
def Obligations.WcDecAnswersTheDatum : Prop :=
  ∀ (w : BitVec 64) (s : State),
    decodeCommand .wc (0x0#4 ++ 0#60 ++ w) = .ok (.wcDec w) ∧
    exec (.wcDec w) s = .next { s with wc := { s.wc with
      status := 0
      datum :=
        if w.extractLsb' 58 6 = s.cfg.tags.frameStart then .frameStart (w.extractLsb' 0 24) (w.extractLsb' 24 16)
        else if w.extractLsb' 58 6 = s.cfg.tags.frameSize then .frameSize (w.extractLsb' 0 20)
        else if w.extractLsb' 58 6 = s.cfg.tags.leading then
          .edge .leading (w.extractLsb' 51 7) (w.extractLsb' 29 22) (w.extractLsb' 0 29)
        else if w.extractLsb' 58 6 = s.cfg.tags.trailing then
          .edge .trailing (w.extractLsb' 51 7) (w.extractLsb' 29 22) (w.extractLsb' 0 29)
        else .unrecognized w } }

/-- R91: a word with the FrameStart tag decodes to its two fields, whatever bits [57:40] hold; as a datum register it is
kind 0 with the masked word as body. -/
def Obligations.FrameStartArmReadsItsFields : Prop :=
  ∀ (w : BitVec 64) (s : State), w.extractLsb' 58 6 = s.cfg.tags.frameStart →
    ∃ t, exec (.wcDec w) s = .next t ∧
      t.wc.datum = .frameStart (w.extractLsb' 0 24) (w.extractLsb' 24 16) ∧
      t.wc.datum.register = 0#3 ++ (w &&& 0x000000FFFFFFFFFF) ∧
      ∀ w' : BitVec 64, w' &&& 0xFC0000FFFFFFFFFF = w &&& 0xFC0000FFFFFFFFFF →
        ∃ t', exec (.wcDec w') s = .next t' ∧ t'.wc.datum = t.wc.datum

/-- R92: a word with the FrameSize tag decodes to its low 20 bits, whatever bits [57:20] hold; kind 1. -/
def Obligations.FrameSizeArmReadsItsField : Prop :=
  ∀ (w : BitVec 64) (s : State), s.cfg.tags.distinct → w.extractLsb' 58 6 = s.cfg.tags.frameSize →
    ∃ t, exec (.wcDec w) s = .next t ∧
      t.wc.datum = .frameSize (w.extractLsb' 0 20) ∧
      t.wc.datum.register = 1#3 ++ (w &&& 0x00000000000FFFFF) ∧
      ∀ w' : BitVec 64, w' &&& 0xFC000000000FFFFF = w &&& 0xFC000000000FFFFF →
        ∃ t', exec (.wcDec w') s = .next t' ∧ t'.wc.datum = t.wc.datum

/-- R93: a word with an edge tag decodes to an Edge, the direction from the tag and the fields from the payload; kind 2 or 3. -/
def Obligations.EdgeArmReadsItsFields : Prop :=
  ∀ (w : BitVec 64) (s : State) (d : Dir), s.cfg.tags.distinct → w.extractLsb' 58 6 = s.cfg.tags.edge d →
    ∃ t, exec (.wcDec w) s = .next t ∧
      t.wc.datum = .edge d (w.extractLsb' 51 7) (w.extractLsb' 29 22) (w.extractLsb' 0 29) ∧
      t.wc.datum.register = (if d = .leading then 2#3 else 3#3) ++ (w &&& 0x03FFFFFFFFFFFFFF)

/-- R94: a word with none of the four tags decodes to Unrecognized with all 64 bits, status OK; kind 4, body the word. -/
def Obligations.UnknownTagKeepsTheWord : Prop :=
  ∀ (w : BitVec 64) (s : State),
    w.extractLsb' 58 6 ∉ [s.cfg.tags.frameStart, s.cfg.tags.frameSize, s.cfg.tags.leading, s.cfg.tags.trailing] →
    ∃ t, exec (.wcDec w) s = .next t ∧ t.wc.status = 0 ∧ t.wc.datum = .unrecognized w ∧
      t.wc.datum.register = 4#3 ++ w

/-- R95, R96 and R97, with the formulas of R98: WC.ENC at op 0x1 answers the word of each variant with status OK and changes
nothing else; of FSIZE_PAYLOAD only the low 20 bits are known; an ill-formed datum register is refused. -/
def Obligations.WcEncAnswersTheWord : Prop :=
  ∀ (d : Datum) (s : State),
    decodeCommand .wc (0x1#4 ++ 0#57 ++ d.register) = .ok (.wcEnc d) ∧
    (∀ r : BitVec 67, datumOfRegister r = none → decodeCommand .wc (0x1#4 ++ 0#57 ++ r) = .error .illFormedDatum) ∧
    (∀ n : BitVec 20, (fsizePayload Config.fsizeHigh n).extractLsb' 0 20 = n) ∧
    exec (.wcEnc d) s = .next { s with wc := { s.wc with
      status := 0
      word :=
        match d with
        | .frameStart f o =>
          s.cfg.tags.frameStart.setWidth 64 <<< 58 ||| o.setWidth 64 <<< 24 ||| f.setWidth 64
        | .frameSize n =>
          s.cfg.tags.frameSize.setWidth 64 <<< 58 ||| (fsizePayload Config.fsizeHigh n).setWidth 64
        | .edge .leading c x tm =>
          s.cfg.tags.leading.setWidth 64 <<< 58 ||| c.setWidth 64 <<< 51 ||| x.setWidth 64 <<< 29 ||| tm.setWidth 64
        | .edge .trailing c x tm =>
          s.cfg.tags.trailing.setWidth 64 <<< 58 ||| c.setWidth 64 <<< 51 ||| x.setWidth 64 <<< 29 ||| tm.setWidth 64
        | .unrecognized w => w } }

/-- R98: the encode arms of Edge and Unrecognized; the words of the two directions differ in bits [63:58] only. -/
def Obligations.EdgeWordsDifferInTheTagOnly : Prop :=
  ∀ (c : BitVec 7) (x : BitVec 22) (tm : BitVec 29) (w : BitVec 64) (s : State),
    ∃ a b u, exec (.wcEnc (.edge .leading c x tm)) s = .next a ∧ exec (.wcEnc (.edge .trailing c x tm)) s = .next b ∧
      exec (.wcEnc (.unrecognized w)) s = .next u ∧ u.wc.word = w ∧
      a.wc.word =
        s.cfg.tags.leading.setWidth 64 <<< 58 ||| c.setWidth 64 <<< 51 ||| x.setWidth 64 <<< 29 ||| tm.setWidth 64 ∧
      b.wc.word =
        s.cfg.tags.trailing.setWidth 64 <<< 58 ||| c.setWidth 64 <<< 51 ||| x.setWidth 64 <<< 29 ||| tm.setWidth 64 ∧
      b.wc.word = (a.wc.word &&& 0x03FFFFFFFFFFFFFF) ||| s.cfg.tags.trailing.setWidth 64 <<< 58 ∧
      a.wc.word = (b.wc.word &&& 0x03FFFFFFFFFFFFFF) ||| s.cfg.tags.leading.setWidth 64 <<< 58

/-- R99: encoding a datum and decoding the word gives the datum back, for every variant, unless it is an Unrecognized that
carries a recognised tag; that one comes back as a recognised variant, and WC.ENC accepts it. -/
def Obligations.CodecRoundTrip : Prop :=
  ∀ (d : Datum) (s : State), s.cfg.tags.distinct →
    ∃ t u, exec (.wcEnc d) s = .next t ∧ exec (.wcDec t.wc.word) t = .next u ∧
      (d.valid s.cfg.tags = true → u.wc.datum = d) ∧
      (d.valid s.cfg.tags = false → ∀ w, u.wc.datum ≠ .unrecognized w)

/-- R100: the variant of a decoded word depends on its tag alone; a word with the Leading tag gives a Leading Edge and never
a Trailing one, and the other way round. -/
def Obligations.TagAloneDecidesTheVariant : Prop :=
  ∀ (w w' : BitVec 64) (s : State), s.cfg.tags.distinct → w.extractLsb' 58 6 = w'.extractLsb' 58 6 →
    ∃ t t', exec (.wcDec w) s = .next t ∧ exec (.wcDec w') s = .next t' ∧
      t.wc.datum.kind = t'.wc.datum.kind ∧
      (t.wc.datum.kind = 2 ↔ w.extractLsb' 58 6 = s.cfg.tags.leading) ∧
      (t.wc.datum.kind = 3 ↔ w.extractLsb' 58 6 = s.cfg.tags.trailing)

/-- R101: decoding a word and encoding the datum gives the word back exactly where the rule says so. -/
def Obligations.WordRoundTripWhere : Prop :=
  ∀ (w : BitVec 64) (s : State), s.cfg.tags.distinct →
    ∃ t u, exec (.wcDec w) s = .next t ∧ exec (.wcEnc t.wc.datum) t = .next u ∧
      (u.wc.word = w ↔
        s.cfg.tags.recognises w = false ∨
        w.extractLsb' 58 6 = s.cfg.tags.leading ∨ w.extractLsb' 58 6 = s.cfg.tags.trailing ∨
        (w.extractLsb' 58 6 = s.cfg.tags.frameStart ∧ w.extractLsb' 40 18 = 0) ∨
        (w.extractLsb' 58 6 = s.cfg.tags.frameSize ∧
          w.extractLsb' 0 58 = fsizePayload Config.fsizeHigh (w.extractLsb' 0 20)))

/-- R23: equal operands give equal results, at any time, in any instance with equal parameters, and WC touches no state but
its own result register. -/
def Obligations.WcKeepsNothing : Prop :=
  ∀ (w : BitVec 64) (d : Datum) (s s' : State), s.cfg = s'.cfg →
    (∃ t t', exec (.wcDec w) s = .next t ∧ exec (.wcDec w) s' = .next t' ∧
      t.wc.datum = t'.wc.datum ∧ t.wc.status = t'.wc.status ∧ t.tord = s.tord ∧ t.eb = s.eb ∧ t.sink = s.sink) ∧
    (∃ t t', exec (.wcEnc d) s = .next t ∧ exec (.wcEnc d) s' = .next t' ∧
      t.wc.word = t'.wc.word ∧ t.wc.status = t'.wc.status ∧ t.tord = s.tord ∧ t.eb = s.eb ∧ t.sink = s.sink)

/-! ## Data words and the input stream -/

/-- R91 to R94 for the data words of the stream: each answers its datum at WC with status OK and changes nothing else. -/
def Obligations.DataWordsAnswerTheirDatum : Prop :=
  ∀ (f : BitVec 24) (o : BitVec 16) (n : BitVec 20) (c : BitVec 7) (x : BitVec 22) (tm : BitVec 29) (w : BitVec 64)
    (s : State),
    exec (.frameStart f o) s = .next { s with wc := { s.wc with status := 0, datum := .frameStart f o } } ∧
    exec (.frameSize n) s = .next { s with wc := { s.wc with status := 0, datum := .frameSize n } } ∧
    exec (.edgeLeading c x tm) s = .next { s with wc := { s.wc with status := 0, datum := .edge .leading c x tm } } ∧
    exec (.edgeTrailing c x tm) s = .next { s with wc := { s.wc with status := 0, datum := .edge .trailing c x tm } } ∧
    exec (.unrecognized w) s = .next { s with wc := { s.wc with status := 0, datum := .unrecognized w } }

/-- R103: a word of the stream runs as WC.DEC of that word, whatever words came before it. -/
def Obligations.StreamWordsAreDecodedOneByOne : Prop :=
  ∀ (w : BitVec 64) (s : State), exec (decodeWord s.cfg.tags w) s = exec (.wcDec w) s

/-- 20_memory.md section 2 and 10_state.md section 1: the k-th word is assembled from the 8 bytes at 8k in the instance's
byte order and decoded, the read offset moves on by 8, and nothing else changes but two things, which are the model's choice:
the input leaves the list of pending inputs (log entry 1, DESIGN CHOICE), and WC's command register is written (log entry 10,
DEDUCED). -/
def Obligations.StreamWordIsAssembled : Prop :=
  ∀ (s : State) (k : Nat) (rest : List HostEvent), s.host = .nextWord :: rest → s.inp.offset = 8 * k →
    8 * k + 8 ≤ s.inp.bytes.length →
    let b : Nat → BitVec 64 := fun j => (s.inp.bytes.getD (8 * k + j) 0).setWidth 64
    let w : BitVec 64 :=
      match s.cfg.byteOrder with
      | .little => b 0 ||| b 1 <<< 8 ||| b 2 <<< 16 ||| b 3 <<< 24 ||| b 4 <<< 32 ||| b 5 <<< 40 ||| b 6 <<< 48 ||| b 7 <<< 56
      | .big => b 0 <<< 56 ||| b 1 <<< 48 ||| b 2 <<< 40 ||| b 3 <<< 32 ||| b 4 <<< 24 ||| b 5 <<< 16 ||| b 6 <<< 8 ||| b 7
    ∃ d, step s = exec (decodeWord s.cfg.tags w)
      { s with host := rest, inp := { s.inp with offset := 8 * k + 8 }, wc := { s.wc with cmd := d } }

/-- 20_memory.md section 2: where fewer than 8 bytes are left, no word is assembled, nothing is decoded and no fault is
raised; the words before them are decoded, whatever the stream's length. That the input leaves the list of pending inputs is
the model's choice, log entry 1 (DESIGN CHOICE). -/
def Obligations.PartialWordEndsTheStream : Prop :=
  ∀ (s : State) (k : Nat) (rest : List HostEvent), s.host = .nextWord :: rest → s.inp.offset = 8 * k →
    (s.inp.bytes.length < 8 * k + 8 → step s = .next { s with host := rest }) ∧
    (8 * k + 8 ≤ s.inp.bytes.length →
      ∃ w t, wordAt s.cfg.byteOrder s.inp.bytes (8 * k) = some w ∧ t.inp = { s.inp with offset := 8 * k + 8 } ∧
        step s = exec (.wcDec w) t)

/-! ## Encodings -/

/-- R75: the fields of a datum register and the bits that are 0; a register reads back as its datum; every register that is
well formed is the register of its datum; the well-formed ones are exactly those the rule describes. -/
def Obligations.DatumRegisterIsFaithful : Prop :=
  (∀ (f : BitVec 24) (o : BitVec 16) (n : BitVec 20) (c : BitVec 7) (x : BitVec 22) (tm : BitVec 29) (w : BitVec 64),
    (Datum.frameStart f o).register = 0#3 ++ 0#24 ++ o ++ f ∧
    (Datum.frameSize n).register = 1#3 ++ 0#44 ++ n ∧
    (Datum.edge .leading c x tm).register = 2#3 ++ 0#6 ++ c ++ x ++ tm ∧
    (Datum.edge .trailing c x tm).register = 3#3 ++ 0#6 ++ c ++ x ++ tm ∧
    (Datum.unrecognized w).register = 4#3 ++ w) ∧
  (∀ d : Datum, datumOfRegister d.register = some d) ∧
  (∀ (r : BitVec 67) (d : Datum), datumOfRegister r = some d → d.register = r) ∧
  (∀ r : BitVec 67, (∃ d, datumOfRegister r = some d) ↔
    (r.extractLsb' 64 3 = 0 ∧ r.extractLsb' 40 24 = 0) ∨
    (r.extractLsb' 64 3 = 1 ∧ r.extractLsb' 20 44 = 0) ∨
    (r.extractLsb' 64 3 = 2 ∧ r.extractLsb' 58 6 = 0) ∨
    (r.extractLsb' 64 3 = 3 ∧ r.extractLsb' 58 6 = 0) ∨
    r.extractLsb' 64 3 = 4)

/-- R78: a descriptor that matches a row names that row's operation with the row's operand bits, and a descriptor names an
operation of a unit only where it matches a row of that unit. -/
def Obligations.DescriptorsMatchTheRows : Prop :=
  ∀ d : BitVec 128,
    let hit : (Dir → BitVec 15 → BitVec 64 → BitVec 32 → Instr) → Instr := fun f =>
      f (if d.extractLsb' 123 1 = 0 then .leading else .trailing) (d.extractLsb' 96 15) (d.extractLsb' 0 64)
        (d.extractLsb' 64 32)
    let isDec := d &&& 0xFFFFFFFFFFFFFFFF0000000000000000 = 0x00000000000000000000000000000000
    let isEnc := d &&& 0xFFFFFFFFFFFFFFF80000000000000000 = 0x10000000000000000000000000000000
    let isToAdd := d &&& 0xF7FF8000000000000000000000000000 = 0x40000000000000000000000000000000
    let isMerge := d &&& 0xFFFFFFFFFFFFFFFFFFFFFFFFFFFFFFFF = 0x50000000000000000000000000000000
    let isEbAdd := d &&& 0xF7FF8000000000000000000000000000 = 0x80000000000000000000000000000000
    let isFb := d &&& 0xFFFFFFFFFFFFFFFF0000000000000000 = 0x90000000000000000000000000000000
    let isFlush := d &&& 0xFFFFFFFFFFFFFFFFFFFFFFFFFFFFFFFF = 0xA0000000000000000000000000000000
    let isWrite := d &&& 0xFFFFFFFFFFFFFFFFFFFFFFFFFFFFFFFF = 0xB0000000000000000000000000000000
    let isSetsid := d &&& 0xFFFFFFFFFFFFFFFFFFFFFFFF00000000 = 0xC0000000000000000000000000000000
    let register := datumOfRegister (d.extractLsb' 0 67)
    (isDec → decodeCommand .wc d = .ok (.wcDec (d.extractLsb' 0 64))) ∧
    (isEnc → ∀ x, register = some x → decodeCommand .wc d = .ok (.wcEnc x)) ∧
    (isToAdd → decodeCommand .tord d = .ok (hit .toAdd)) ∧
    (isMerge → decodeCommand .tord d = .ok .toMerge) ∧
    (isEbAdd → decodeCommand .eb d = .ok (hit .ebAdd)) ∧
    (isFb → decodeCommand .eb d = .ok (.ebFb (d.extractLsb' 0 64))) ∧
    (isFlush → decodeCommand .eb d = .ok .ebFlush) ∧
    (isWrite → decodeCommand .eb d = .ok .ebWrite) ∧
    (isSetsid → decodeCommand .eb d = .ok (.ebSetsid (d.extractLsb' 0 32))) ∧
    (∀ i, decodeCommand .wc d = .ok i → isDec ∨ (isEnc ∧ register.isSome = true)) ∧
    (∀ i, decodeCommand .tord d = .ok i → isToAdd ∨ isMerge) ∧
    (∀ i, decodeCommand .eb d = .ok i → isEbAdd ∨ isFb ∨ isFlush ∨ isWrite ∨ isSetsid)

/-- Decoding the bits of a well-formed instruction gives the instruction, for every instruction, every operand, every set of
distinct tags and every upper part of FSIZE_PAYLOAD. -/
def Obligations.DecodeOfEncode : Prop :=
  ∀ (t : Tags) (hi : BitVec 20 → BitVec 38) (i : Instr), t.distinct → i.wellFormed t = true →
    decode t (encode t hi i) = .ok i

/-- Every descriptor that names a command is the one encoding of that command: no bit of an accepted descriptor is ignored. -/
def Obligations.EncodeOfDecode : Prop :=
  ∀ (t : Tags) (hi : BitVec 20 → BitVec 38) (u : UnitId) (d : BitVec 128) (i : Instr),
    decodeCommand u d = .ok i → encode t hi i = .command u d

/-- Example words decode to what they stand for: R78's own example, then E15, S8 (twice), P3, E22 and W1 of
95_test_vectors.md, the last two words (W1, W14) under the test instantiation TT of its section 0. TT's tag values are not the
spec's: PRESUMED, log entry 19. -/
def Obligations.SampleWordsDecode : Prop :=
  decodeCommand .eb 0x800000010000029A0000000000000032 = .ok (.ebAdd .leading 1 50 666) ∧
  decodeCommand .eb 0x88007FFF00000005000000000000000A = .ok (.ebAdd .trailing 32767 10 5) ∧
  decodeCommand .tord 0x40000001000000000000000000000028 = .ok (.toAdd .leading 1 40 0) ∧
  decodeCommand .tord 0x50000000000000000000000000000000 = .ok .toMerge ∧
  decodeCommand .eb 0xC0000000000000000000000000000002 = .ok (.ebSetsid 2) ∧
  decodeCommand .eb 0xC0000000000000000000000100000002 = .error .reservedBits ∧
  decodeCommand .wc 0x100000000000000200280053400003E8 = .ok (.wcEnc (.edge .leading 5 666 1000)) ∧
  decodeWord ⟨0x1C, 0x1E, 0x0B, 0x0D⟩ 0x2C280053400003E8 = .edgeLeading 5 666 1000 ∧
  decodeWord ⟨0x1C, 0x1E, 0x0B, 0x0D⟩ 0x700000123400000A = .frameStart 10 0x1234

/-- A step runs the decoded instruction: with a command pending at a port, the port's operand register is written and the
instruction it decodes to runs. Three points are the model's choice: the step takes the input off the list of pending inputs
(log entry 1), and a command at the EB port brings the record of the record-input port (log entry 20) and the sink's answer
(log entry 5), whatever the command. -/
def Obligations.StepRunsTheDecodedCommand : Prop :=
  ∀ (s : State) (d : BitVec 128) (r : Record) (a : Answer) (rest : List HostEvent) (i : Instr),
    (s.host = .wcCommand d :: rest → decodeCommand .wc d = .ok i →
      step s = exec i { s with host := rest, wc := { s.wc with cmd := d } }) ∧
    (s.host = .tordCommand d :: rest → decodeCommand .tord d = .ok i →
      step s = exec i { s with host := rest, tord := { s.tord with cmd := d } }) ∧
    (s.host = .ebCommand d r a :: rest → decodeCommand .eb d = .ok i →
      step s = exec i { s with
        host := rest, eb := { s.eb with cmd := d, recIn := r }, sink := { s.sink with answer := a } })

/-- The bits of a well-formed instruction, placed where the machine fetches, are the next instruction to run: the step runs it
from the state it was placed in, but for the command register that received it and, for a data word, the input stream. Where
the bits are placed, that the step takes them off the list of pending inputs again, and that presenting a data word writes WC's
command register, is the model's choice: log entries 2, 1 and 10. -/
def Obligations.PlacedInstructionRunsNext : Prop :=
  ∀ (i : Instr) (s : State), s.cfg.tags.distinct → i.wellFormed s.cfg.tags = true →
    ∃ t, step (placeCode (encode s.cfg.tags Config.fsizeHigh i) s) = exec i t ∧
      t.cfg = s.cfg ∧ t.host = s.host ∧ t.sink = s.sink ∧
      (∃ d, t.wc = if i.unit = .wc then { s.wc with cmd := d } else s.wc) ∧
      (∃ d, t.tord = if i.unit = .tord then { s.tord with cmd := d } else s.tord) ∧
      (∃ d, t.eb = if i.unit = .eb then { s.eb with cmd := d } else s.eb) ∧
      (∀ u d, encode s.cfg.tags Config.fsizeHigh i = .command u d → t.inp = s.inp)

/-- 60_exceptions.md section 1 and 30_encoding.md section 5: a descriptor that names no operation of the unit gives status 5,
sets bit 4 of the unit's FAULT register (WC has none), and changes nothing else but the host's own writes of the port. What
those are is the model's choice: the input leaves the list of pending inputs (log entry 1), and a command at the EB port brings
a record (log entry 20) and an answer of the sink (log entry 5). -/
def Obligations.IllegalCommandChangesNothingElse : Prop :=
  ∀ (s : State) (d : BitVec 128) (r : Record) (a : Answer) (rest : List HostEvent) (e : Reject),
    (s.host = .wcCommand d :: rest → decodeCommand .wc d = .error e →
      step s = .next { s with host := rest, wc := { s.wc with cmd := d, status := 5 } }) ∧
    (s.host = .tordCommand d :: rest → decodeCommand .tord d = .error e →
      step s = .next { s with host := rest, tord := { s.tord with
        cmd := d, status := 5, info := .none, fault := s.tord.fault ||| 0b10000 } }) ∧
    (s.host = .ebCommand d r a :: rest → decodeCommand .eb d = .error e →
      step s = .next { s with
        host := rest
        eb := { s.eb with cmd := d, recIn := r, status := 5, info := .none, fault := s.eb.fault ||| 0b10000 }
        sink := { s.sink with answer := a } })

/-! ## TO -/

/-- R110 and R161: TO.ADD at op 0x4. A channel not below NCHAN raises CHAN_RANGE, else a full TO raises CAPACITY, both with
no other change; else the hit is appended to its channel's bucket and nothing else changes. -/
def Obligations.ToAddFollowsItsRule : Prop :=
  ∀ (dir : Dir) (chan : BitVec 15) (time : BitVec 64) (tot : BitVec 32) (s : State),
    let held := ((List.range s.tord.nchan.val).map fun c => (s.tord.buckets.getD c []).length).sum
    decodeCommand .tord (0x4#4 ++ dir.bit ++ 0#12 ++ chan ++ tot ++ time) = .ok (.toAdd dir chan time tot) ∧
    (s.tord.nchan.val ≤ chan.toNat →
      exec (.toAdd dir chan time tot) s = .next { s with tord := { s.tord with
        status := 1, info := .chan chan, fault := s.tord.fault ||| 0b00001 } }) ∧
    (chan.toNat < s.tord.nchan.val → (∃ k, s.cfg.toCap = .upTo k ∧ k ≤ held) →
      exec (.toAdd dir chan time tot) s = .next { s with tord := { s.tord with
        status := 4, info := .count held, fault := s.tord.fault ||| 0b01000 } }) ∧
    (chan.toNat < s.tord.nchan.val → (∀ k, s.cfg.toCap = .upTo k → held < k) →
      ∃ x, exec (.toAdd dir chan time tot) s = .next { s with tord := { s.tord with
        status := 0, info := x
        buckets := s.tord.buckets.set chan.toNat
          (s.tord.buckets.getD chan.toNat [] ++ [{ dir := dir, chan := chan, time := time, tot := tot }]) } })

/-- R111: TO.MERGE at op 0x5 ends OK, empties every bucket, puts every cursor at 0, and changes nothing else but the result
register; the i-th hit it emits is, among the heads of the channels after the first i, the one that is least by time and then
by channel, and it ends where there is no head. The head of a channel is the first of its hits that was not emitted. -/
def Obligations.ToMergeFollowsItsRule : Prop :=
  ∀ s : State,
    decodeCommand .tord (0x5#4 ++ 0#124) = .ok .toMerge ∧
    ∃ out x, exec .toMerge s = .next { s with tord := { s.tord with
        status := 0, info := x, hits := out
        buckets := List.replicate s.tord.nchan.val [], cur := List.replicate s.tord.nchan.val 0 } } ∧
      (Memory.wf s → ∀ i : Nat,
        let head : Nat → Option Hit := fun c =>
          (s.tord.buckets.getD c [])[((out.take i).filter fun h => h.chan.toNat = c).length]?
        (∀ h, out[i]? = some h ↔
          h.chan.toNat < s.tord.nchan.val ∧ head h.chan.toNat = some h ∧
            ∀ c < s.tord.nchan.val, ∀ g, head c = some g → h.time < g.time ∨ (h.time = g.time ∧ h.chan.toNat ≤ c)) ∧
        (out[i]? = none ↔ ∀ c < s.tord.nchan.val, head c = none))

/-- R111: the scan over the channels in ascending order with a strict comparison selects, among the channel heads, the one
that is least by time and then by channel, as a priority queue keyed by (time, chan) would; none where there is no head. -/
def Obligations.ScanSelectsTheLeastHead : Prop :=
  ∀ (n : Nat) (buckets : List (List Hit)) (cur : List Nat),
    (∀ c h, pickHead n buckets cur = some (c, h) ↔
      c < n ∧ headAt buckets cur c = some h ∧
        ∀ c' < n, ∀ h', headAt buckets cur c' = some h' → h.time < h'.time ∨ (h.time = h'.time ∧ c ≤ c')) ∧
    (pickHead n buckets cur = none ↔ ∀ c < n, headAt buckets cur c = none)

/-- R112 and R115: the result of TO.MERGE is a permutation of the hits held, keeps each channel's own order, and, where every
bucket is non-decreasing in time, is non-decreasing in time with ties in ascending channel order. -/
def Obligations.MergeContract : Prop :=
  ∀ s : State, Memory.wf s →
    ∃ t, exec .toMerge s = .next t ∧
      t.tord.hits.Perm s.tord.buckets.flatten ∧
      (∀ c < s.tord.nchan.val, t.tord.hits.filter (fun h => h.chan.toNat = c) = s.tord.buckets.getD c []) ∧
      (monotoneBuckets s.tord.buckets → Nondecreasing t.tord.hits) ∧
      (monotoneBuckets s.tord.buckets → ∀ (i j : Nat) (a b : Hit), t.tord.hits[i]? = some a → t.tord.hits[j]? = some b →
        a.time = b.time → a.chan < b.chan → i < j)

/-- R113: after TO.MERGE the buckets, cursors and NCHAN are those of a TO just reset with the same NCHAN, and a second
TO.MERGE gives no hits. -/
def Obligations.MergeLeavesTheResetState : Prop :=
  ∀ s : State, ∃ t u, exec .toMerge s = .next t ∧ exec .toMerge t = .next u ∧
    t.tord.nchan = s.tord.nchan ∧
    t.tord.buckets = (TordState.reset s.tord.nchan).buckets ∧
    t.tord.cur = (TordState.reset s.tord.nchan).cur ∧
    t.tord.fault = s.tord.fault ∧ u.tord.hits = []

/-! ## EB -/

/-- R131 and R162: EB.ADD at op 0x8, arm by arm: Empty (opens, or CAPACITY), Open and early (ORDER), Open and inside the
window (appends, or CAPACITY), Open and outside it (flushes, then opens, or SINK_FAIL). Nothing else changes. -/
def Obligations.EbAddFollowsItsRule : Prop :=
  ∀ (dir : Dir) (chan : BitVec 15) (time : BitVec 64) (tot : BitVec 32) (s : State),
    let e : Entry := { tagword := dir.bit.setWidth 16 <<< 15 ||| chan.setWidth 16, time := time, tot := tot }
    let room := ∀ k, s.cfg.ebCap = .upTo k → s.eb.entries.length < k
    let full := ∃ k, s.cfg.ebCap = .upTo k ∧ k ≤ s.eb.entries.length
    let atCapacity : State := { s with eb := { s.eb with
      status := 4, info := .count s.eb.entries.length, fault := s.eb.fault ||| 0b01000 } }
    let flushed : Record :=
      { type := s.cfg.eventType
        header := some { timestamp := s.eb.startTime, sourceId := s.eb.sid, barrierType := s.cfg.eventBarrier }
        payload := s.eb.entries.flatMap fun x => [.f16 x.tagword, .f64 x.time, .f32 x.tot] }
    decodeCommand .eb (0x8#4 ++ dir.bit ++ 0#12 ++ chan ++ tot ++ time) = .ok (.ebAdd dir chan time tot) ∧
    (s.eb.isOpen = false → room →
      ∃ x, exec (.ebAdd dir chan time tot) s = .next { s with eb := { s.eb with
        status := 0, info := x, startTime := time, entries := s.eb.entries ++ [e], isOpen := true } }) ∧
    (s.eb.isOpen = false → full → exec (.ebAdd dir chan time tot) s = .next atCapacity) ∧
    (s.eb.isOpen = true → time.toNat < s.eb.startTime.toNat →
      exec (.ebAdd dir chan time tot) s = .next { s with eb := { s.eb with
        status := 2, info := .time time, fault := s.eb.fault ||| 0b00010 } }) ∧
    (s.eb.isOpen = true → s.eb.startTime.toNat ≤ time.toNat → time.toNat - s.eb.startTime.toNat ≤ s.eb.dt.toNat → room →
      ∃ x, exec (.ebAdd dir chan time tot) s = .next { s with eb := { s.eb with
        status := 0, info := x, entries := s.eb.entries ++ [e] } }) ∧
    (s.eb.isOpen = true → s.eb.startTime.toNat ≤ time.toNat → time.toNat - s.eb.startTime.toNat ≤ s.eb.dt.toNat → full →
      exec (.ebAdd dir chan time tot) s = .next atCapacity) ∧
    (s.eb.isOpen = true → s.eb.startTime.toNat ≤ time.toNat → s.eb.dt.toNat < time.toNat - s.eb.startTime.toNat →
      s.sink.attached = true → s.sink.answer = .ok →
      ∃ x, exec (.ebAdd dir chan time tot) s = .next { s with
        eb := { s.eb with status := 0, info := x, startTime := time, entries := [e], isOpen := true }
        sink := { s.sink with trace := s.sink.trace ++ [flushed] } }) ∧
    (s.eb.isOpen = true → s.eb.startTime.toNat ≤ time.toNat → s.eb.dt.toNat < time.toNat - s.eb.startTime.toNat →
      s.sink.attached = true → s.sink.answer = .fail →
      exec (.ebAdd dir chan time tot) s = .next { s with
        eb := { s.eb with
          status := 3, info := .none, fault := s.eb.fault ||| 0b00100, entries := [], isOpen := false }
        sink := { s.sink with trace := s.sink.trace ++ [flushed] } })

/-- R132: EB.FB at op 0x9. In Empty under drop it changes nothing but the status; else it appends the marker, or raises
CAPACITY; it never opens an event, sets no start time and calls no sink. -/
def Obligations.EbFbFollowsItsRule : Prop :=
  ∀ (frame : BitVec 64) (s : State),
    decodeCommand .eb (0x9#4 ++ 0#60 ++ frame) = .ok (.ebFb frame) ∧
    (s.eb.isOpen = false → s.cfg.fbPolicy = .drop →
      ∃ x, exec (.ebFb frame) s = .next { s with eb := { s.eb with status := 0, info := x } }) ∧
    (s.eb.isOpen = true ∨ s.cfg.fbPolicy = .carry → (∀ k, s.cfg.ebCap = .upTo k → s.eb.entries.length < k) →
      ∃ x, exec (.ebFb frame) s = .next { s with eb := { s.eb with
        status := 0, info := x
        entries := s.eb.entries ++ [{ tagword := 0xFFFF, time := frame, tot := 0xFFFFFFFF }] } }) ∧
    (s.eb.isOpen = true ∨ s.cfg.fbPolicy = .carry → (∃ k, s.cfg.ebCap = .upTo k ∧ k ≤ s.eb.entries.length) →
      exec (.ebFb frame) s = .next { s with eb := { s.eb with
        status := 4, info := .count s.eb.entries.length, fault := s.eb.fault ||| 0b01000 } })

/-- R133 and R136: EB.FLUSH at op 0xA. In Empty it changes nothing but the status; in Open it hands the event record to the
sink, leaves EB Empty with no entries, and raises SINK_FAIL where the sink answers fail; nothing else changes. -/
def Obligations.EbFlushFollowsItsRule : Prop :=
  ∀ s : State,
    let flushed : Record :=
      { type := s.cfg.eventType
        header := some { timestamp := s.eb.startTime, sourceId := s.eb.sid, barrierType := s.cfg.eventBarrier }
        payload := s.eb.entries.flatMap fun x => [.f16 x.tagword, .f64 x.time, .f32 x.tot] }
    decodeCommand .eb (0xA#4 ++ 0#124) = .ok .ebFlush ∧
    (s.eb.isOpen = false → ∃ x, exec .ebFlush s = .next { s with eb := { s.eb with status := 0, info := x } }) ∧
    (s.eb.isOpen = true → s.sink.attached = true → s.sink.answer = .ok →
      ∃ x, exec .ebFlush s = .next { s with
        eb := { s.eb with status := 0, info := x, entries := [], isOpen := false }
        sink := { s.sink with trace := s.sink.trace ++ [flushed] } }) ∧
    (s.eb.isOpen = true → s.sink.attached = true → s.sink.answer = .fail →
      exec .ebFlush s = .next { s with
        eb := { s.eb with
          status := 3, info := .none, fault := s.eb.fault ||| 0b00100, entries := [], isOpen := false }
        sink := { s.sink with trace := s.sink.trace ++ [flushed] } })

/-- R134: EB.WRITE at op 0xB hands the record on the record-input port to the sink unchanged, whatever the accumulator
holds, and changes the accumulator in no case. -/
def Obligations.EbWriteFollowsItsRule : Prop :=
  ∀ s : State,
    decodeCommand .eb (0xB#4 ++ 0#124) = .ok .ebWrite ∧
    (s.sink.attached = true → s.sink.answer = .ok →
      ∃ x, exec .ebWrite s = .next { s with
        eb := { s.eb with status := 0, info := x }
        sink := { s.sink with trace := s.sink.trace ++ [s.eb.recIn] } }) ∧
    (s.sink.attached = true → s.sink.answer = .fail →
      exec .ebWrite s = .next { s with
        eb := { s.eb with status := 3, info := .none, fault := s.eb.fault ||| 0b00100 }
        sink := { s.sink with trace := s.sink.trace ++ [s.eb.recIn] } })

/-- R135: EB.SETSID at op 0xC writes the source id and nothing else, ends OK, and the record of an event that was already
open leaves with the new id. -/
def Obligations.EbSetsidFollowsItsRule : Prop :=
  ∀ (sid : BitVec 32) (s : State),
    decodeCommand .eb (0xC#4 ++ 0#92 ++ sid) = .ok (.ebSetsid sid) ∧
    ∃ x, exec (.ebSetsid sid) s = .next { s with eb := { s.eb with status := 0, info := x, sid := sid } } ∧
    (s.eb.isOpen = true → s.sink.attached = true →
      ∃ t u r, exec (.ebSetsid sid) s = .next t ∧ exec .ebFlush t = .next u ∧
        u.sink.trace = s.sink.trace ++ [r] ∧
        r.header = some { timestamp := s.eb.startTime, sourceId := sid, barrierType := s.cfg.eventBarrier })

/-- 70_reset_and_hazards.md section 1 (boot duty 2): an operation that calls the sink has no defined behaviour without one.
The stop is the model's choice, log entry 6. -/
def Obligations.SinkCallsStopWithoutASink : Prop :=
  ∀ (dir : Dir) (chan : BitVec 15) (time : BitVec 64) (tot : BitVec 32) (s : State), s.sink.attached = false →
    exec .ebWrite s = .fault .noSink ∧
    (s.eb.isOpen = true → exec .ebFlush s = .fault .noSink) ∧
    (s.eb.isOpen = true → s.eb.startTime.toNat ≤ time.toNat → s.eb.dt.toNat < time.toNat - s.eb.startTime.toNat →
      exec (.ebAdd dir chan time tot) s = .fault .noSink)

/-- R137: with EB Empty, hits at t0 and t0 + DT stay in one Open event, and a hit at t0 + DT + 1 sends a record with
exactly those two entries and opens an event of its own. -/
def Obligations.WindowIsInclusive : Prop :=
  ∀ (s : State) (t0 : BitVec 64) (d0 d1 d2 : Dir) (c0 c1 c2 : BitVec 15) (x0 x1 x2 : BitVec 32),
    s.eb.isOpen = false → s.eb.entries = [] → (∀ k, s.cfg.ebCap = .upTo k → 2 ≤ k) →
    s.sink.attached = true → s.sink.answer = .ok → t0.toNat + s.eb.dt.toNat + 1 < 2 ^ 64 →
    ∃ a b c,
      exec (.ebAdd d0 c0 t0 x0) s = .next a ∧
      exec (.ebAdd d1 c1 (t0 + s.eb.dt) x1) a = .next b ∧
      exec (.ebAdd d2 c2 (t0 + s.eb.dt + 1) x2) b = .next c ∧
      b.eb.isOpen = true ∧ b.sink.trace = s.sink.trace ∧
      b.eb.entries = [entryOfHit d0 c0 t0 x0, entryOfHit d1 c1 (t0 + s.eb.dt) x1] ∧
      c.eb.isOpen = true ∧ c.eb.startTime = t0 + s.eb.dt + 1 ∧
      c.eb.entries = [entryOfHit d2 c2 (t0 + s.eb.dt + 1) x2] ∧
      ∃ r, c.sink.trace = s.sink.trace ++ [r] ∧ r.timestamp = some t0 ∧
        r.payload = payloadOf [entryOfHit d0 c0 t0 x0, entryOfHit d1 c1 (t0 + s.eb.dt) x1]

/-- R138: under both policies a frame boundary in Empty followed by a flush calls no sink, and in Open a frame boundary
never causes a flush. -/
def Obligations.FrameBoundaryDoesNotTrigger : Prop :=
  ∀ (frame : BitVec 64) (s : State),
    (s.eb.isOpen = false →
      ∃ t u, exec (.ebFb frame) s = .next t ∧ exec .ebFlush t = .next u ∧ t.sink = s.sink ∧ u.sink = s.sink) ∧
    (s.eb.isOpen = true →
      ∃ t, exec (.ebFb frame) s = .next t ∧ t.sink = s.sink ∧ t.eb.isOpen = true ∧ t.eb.startTime = s.eb.startTime)

/-- R139: over any run of EB commands whose sink never fails, the payloads of the records sent and the entries still held
are together the entries held before and then entries that commands offered, in the order of the commands, none twice; and
with no fault recorded, and no frame boundary that drop could discard, they are all that was offered. -/
def Obligations.EveryEntryLeavesOnce : Prop :=
  ∀ (is : List (Answer × Instr)) (s t : State),
    (∀ p ∈ is, p.1 = .ok ∧ p.2.accumulates = true) → runAll is s = .next t →
    ∃ (rs : List Record) (kept : List Entry),
      t.sink.trace = s.sink.trace ++ rs ∧
      rs.flatMap Record.payload ++ payloadOf t.eb.entries = payloadOf s.eb.entries ++ payloadOf kept ∧
      kept.Sublist (is.flatMap fun p => p.2.offered) ∧
      (t.eb.fault = 0 → (s.cfg.fbPolicy = .carry ∨ ∀ p ∈ is, p.2.isFb = false) →
        kept = is.flatMap fun p => p.2.offered)

/-- R140: over any run of EB commands whose EB.ADD times never go back, starting Empty, no ORDER is raised, the event
records leave with non-decreasing timestamps, and every entry of a record is a marker or lies in its window; and where an
EB.ADD flushes and opens the next event, the new start time is strictly later than the record's timestamp. -/
def Obligations.EventRecordsFollowTime : Prop :=
  (∀ (is : List (Answer × Instr)) (s t : State),
    (∀ p ∈ is, p.2.accumulates = true) → (addTimes is).Pairwise (· ≤ ·) →
    s.eb.isOpen = false → (∀ e ∈ s.eb.entries, e.isMarker = true) → runAll is s = .next t →
    t.eb.fault &&& 0b00010 = s.eb.fault &&& 0b00010 ∧
    ∃ rs : List Record, t.sink.trace = s.sink.trace ++ rs ∧
      (rs.Pairwise fun a b => ∀ x y, a.timestamp = some x → b.timestamp = some y → x ≤ y) ∧
      ∀ r ∈ rs, ∃ x es, r.timestamp = some x ∧ r.payload = payloadOf es ∧
        ∀ e ∈ es, e.isMarker = true ∨ inWindow x s.eb.dt e.time) ∧
  (∀ (dir : Dir) (chan : BitVec 15) (time : BitVec 64) (tot : BitVec 32) (s t : State) (r : Record),
    exec (.ebAdd dir chan time tot) s = .next t → t.sink.trace = s.sink.trace ++ [r] → t.eb.isOpen = true →
    r.timestamp = some s.eb.startTime ∧ s.eb.startTime < t.eb.startTime)

/-- The hits of a merge over monotone buckets, fed to an Empty EB, raise no ORDER (41_timeorderer.md section 3,
70_reset_and_hazards.md section 2). -/
def Obligations.MergedHitsRaiseNoOrder : Prop :=
  ∀ (s t u : State) (is : List (Answer × Instr)), Memory.wf s → monotoneBuckets s.tord.buckets → s.eb.isOpen = false →
    exec .toMerge s = .next t →
    is.map Prod.snd = t.tord.hits.map (fun h => Instr.ebAdd h.dir h.chan h.time h.tot) →
    runAll is t = .next u → u.eb.fault &&& 0b00010 = s.eb.fault &&& 0b00010

/-! ## Records and their bytes -/

/-- R70: the edge-tag word holds the direction in bit 15 and the channel below it; it equals the sentinel 0xFFFF exactly for
a trailing hit on channel 32767, which EB.ADD accepts. -/
def Obligations.SentinelTagword : Prop :=
  (∀ (dir : Dir) (chan : BitVec 15),
    (tagword dir chan).extractLsb' 15 1 = dir.bit ∧ (tagword dir chan).extractLsb' 0 15 = chan ∧
    (tagword dir chan = 0xFFFF ↔ dir = .trailing ∧ chan = 32767)) ∧
  (∀ (time : BitVec 64) (tot : BitVec 32) (s : State), s.eb.isOpen = false → s.eb.entries = [] →
    (∀ k, s.cfg.ebCap = .upTo k → 0 < k) →
    ∃ t, exec (.ebAdd .trailing 32767 time tot) s = .next t ∧
      t.eb.entries = [{ tagword := 0xFFFF, time := time, tot := tot }])

/-- R47: byte j of a field of w bits is v[8j+7:8j] under little and v[w-1-8j:w-8-8j] under big, and the fields of a payload
follow one another with nothing between. -/
def Obligations.PayloadFieldBytes : Prop :=
  (∀ (v : BitVec 16) (j : Nat), j < 2 →
    (Field.bytes .little (.f16 v))[j]? = some (v.extractLsb' (8 * j) 8) ∧
    (Field.bytes .big (.f16 v))[j]? = some (v.extractLsb' (8 - 8 * j) 8)) ∧
  (∀ (v : BitVec 32) (j : Nat), j < 4 →
    (Field.bytes .little (.f32 v))[j]? = some (v.extractLsb' (8 * j) 8) ∧
    (Field.bytes .big (.f32 v))[j]? = some (v.extractLsb' (24 - 8 * j) 8)) ∧
  (∀ (v : BitVec 64) (j : Nat), j < 8 →
    (Field.bytes .little (.f64 v))[j]? = some (v.extractLsb' (8 * j) 8) ∧
    (Field.bytes .big (.f64 v))[j]? = some (v.extractLsb' (56 - 8 * j) 8)) ∧
  (∀ (order : ByteOrder) (v : BitVec 16) (v' : BitVec 32) (v'' : BitVec 64),
    (Field.bytes order (.f16 v)).length = 2 ∧ (Field.bytes order (.f32 v')).length = 4 ∧
    (Field.bytes order (.f64 v'')).length = 8) ∧
  (∀ (order : ByteOrder) (type : BitVec 32) (header : Option RecordHeader) (f : Field) (fs : List Field),
    Record.payloadBytes order ⟨type, header, f :: fs⟩ =
      Field.bytes order f ++ Record.payloadBytes order ⟨type, header, fs⟩)

/-- 30_encoding.md section 3 and 20_memory.md section 6: the record of a flush has three fields and 14 bytes for each
entry, in either byte order. -/
def Obligations.EventRecordHas14BytesAnEntry : Prop :=
  ∀ (order : ByteOrder) (s : State), s.eb.isOpen = true → s.sink.attached = true →
    ∃ t r, exec .ebFlush s = .next t ∧ t.sink.trace = s.sink.trace ++ [r] ∧
      r.payload.length = 3 * s.eb.entries.length ∧
      (r.payloadBytes order).length = 14 * s.eb.entries.length

/-- 30_encoding.md section 1: the widenings of the host's conversion of an Edge to a Hit, where the sum fits 64 bits. That
it gives no Hit where the sum does not fit is the model's choice, log entry 17. -/
def Obligations.EdgeToHitWidens : Prop :=
  ∀ (base : BitVec 64) (dir : Dir) (channel : BitVec 7) (tot : BitVec 22) (time : BitVec 29),
    (base.toNat + time.toNat < 2 ^ 64 →
      ∃ h, hitOfEdge base dir channel tot time = some h ∧ h.dir = dir ∧ h.chan.toNat = channel.toNat ∧
        h.tot.toNat = tot.toNat ∧ h.time.toNat = base.toNat + time.toNat) ∧
    (2 ^ 64 ≤ base.toNat + time.toNat → hitOfEdge base dir channel tot time = none)

/-! ## The whole machine -/

/-- R35 with the unused FAULT bits of R29 and the form of the data spaces: every step keeps the invariants. -/
def Obligations.EveryStepKeepsTheInvariants : Prop :=
  ∀ s t : State, s.Inv → step s = .next t → t.Inv

/-- The invariants hold after reset. -/
def Obligations.ResetHasTheInvariants : Prop :=
  State.reset.Inv

/-- R36: what reset leaves, where the rule states it. -/
def Obligations.ResetValues : Prop :=
  State.reset.tord.nchan = Config.nchan ∧
  State.reset.tord.buckets = List.replicate Config.nchan.val [] ∧
  State.reset.tord.cur = List.replicate Config.nchan.val 0 ∧
  State.reset.tord.fault = 0 ∧
  State.reset.eb.isOpen = false ∧ State.reset.eb.entries = [] ∧
  State.reset.eb.sid = Config.sidInit ∧ State.reset.eb.dt = Config.dt ∧ State.reset.eb.fault = 0 ∧
  State.reset.sink.trace = []

/-- 70_reset_and_hazards.md section 1: reset of one unit samples its straps, empties it and clears its FAULT register, hands
no record to the sink, and leaves the other units alone. Three points are the model's choice: the reset of EB brings whether a
sink is attached (log entry 6), it keeps the answer the sink will give next (log entry 5), and the reset leaves the list of
pending inputs (log entry 1). -/
def Obligations.UnitResets : Prop :=
  ∀ (s : State) (rest : List HostEvent),
    (∀ n, s.host = .resetTord n :: rest →
      ∃ t, step s = .next t ∧ t.tord.nchan = n ∧ t.tord.buckets = List.replicate n.val [] ∧
        t.tord.cur = List.replicate n.val 0 ∧ t.tord.fault = 0 ∧
        t.cfg = s.cfg ∧ t.wc = s.wc ∧ t.eb = s.eb ∧ t.sink = s.sink ∧ t.inp = s.inp ∧ t.host = rest) ∧
    (∀ dt sid a, s.host = .resetEb dt sid a :: rest →
      ∃ t, step s = .next t ∧ t.eb.isOpen = false ∧ t.eb.entries = [] ∧ t.eb.sid = sid ∧ t.eb.dt = dt ∧
        t.eb.fault = 0 ∧ t.sink.attached = a ∧ t.sink.answer = s.sink.answer ∧
        (∀ r ∈ t.sink.trace, r ∈ s.sink.trace) ∧
        t.cfg = s.cfg ∧ t.wc = s.wc ∧ t.tord = s.tord ∧ t.inp = s.inp ∧ t.host = rest)

/-- With nothing pending a step changes nothing; the outcome `next` is the model's choice, log entry 1. -/
def Obligations.NothingPendingNothingHappens : Prop :=
  ∀ s : State, s.host = [] → step s = .next s

/-- 60_exceptions.md section 2: the block never stops. With a sink attached every step, whatever the input, ends in a next
state that has the parameters of the one before. That a step with no input pending answers `next` is the model's choice, log
entry 1. -/
def Obligations.TheBlockNeverStops : Prop :=
  ∀ s : State, s.sink.attached = true → ∃ t, step s = .next t ∧ t.cfg = s.cfg

/-- 60_exceptions.md section 2 and 10_state.md section 4: FAULT bits accumulate, and only reset of the unit clears one. -/
def Obligations.FaultBitsAreSticky : Prop :=
  ∀ s t : State, step s = .next t →
    ((∀ n rest, s.host ≠ .resetTord n :: rest) → s.tord.fault &&& t.tord.fault = s.tord.fault) ∧
    ((∀ dt sid a rest, s.host ≠ .resetEb dt sid a :: rest) → s.eb.fault &&& t.eb.fault = s.eb.fault)

/-- 60_exceptions.md section 1, by unit: an operation ends with status OK and the FAULT register as it was, or with exactly
one of the faults listed for its unit and that fault's own bit set. -/
def Obligations.StatusAndStickyBitAgree : Prop :=
  ∀ (i : Instr) (s t : State), exec i s = .next t →
    (i.unit = .wc → t.wc.status = 0) ∧
    (i.unit = .tord →
      (t.tord.status = 0 ∧ t.tord.fault = s.tord.fault) ∨
      (t.tord.status = 1 ∧ t.tord.fault = s.tord.fault ||| 0b00001) ∨
      (t.tord.status = 4 ∧ t.tord.fault = s.tord.fault ||| 0b01000)) ∧
    (i.unit = .eb →
      (t.eb.status = 0 ∧ t.eb.fault = s.eb.fault) ∨
      (t.eb.status = 2 ∧ t.eb.fault = s.eb.fault ||| 0b00010) ∨
      (t.eb.status = 3 ∧ t.eb.fault = s.eb.fault ||| 0b00100) ∨
      (t.eb.status = 4 ∧ t.eb.fault = s.eb.fault ||| 0b01000))

/-- R167: of several conditions that hold for one command, the first in the rule's order is raised. -/
def Obligations.FaultPriority : Prop :=
  (∀ (s : State) (d : BitVec 128) (r : Record) (a : Answer) (rest : List HostEvent) (e : Reject),
    s.host = .ebCommand d r a :: rest → decodeCommand .eb d = .error e →
    ∃ t, step s = .next t ∧ t.eb.status = 5 ∧ t.eb.fault = s.eb.fault ||| 0b10000 ∧ t.sink.trace = s.sink.trace) ∧
  (∀ (s : State) (d : BitVec 128) (rest : List HostEvent) (e : Reject),
    s.host = .tordCommand d :: rest → decodeCommand .tord d = .error e →
    ∃ t, step s = .next t ∧ t.tord.status = 5 ∧ t.tord.fault = s.tord.fault ||| 0b10000) ∧
  (∀ (dir : Dir) (chan : BitVec 15) (time : BitVec 64) (tot : BitVec 32) (s : State),
    (s.tord.nchan.val ≤ chan.toNat → ∃ t, exec (.toAdd dir chan time tot) s = .next t ∧ t.tord.status = 1) ∧
    (s.eb.isOpen = true → time < s.eb.startTime →
      ∃ t, exec (.ebAdd dir chan time tot) s = .next t ∧ t.eb.status = 2 ∧ t.sink.trace = s.sink.trace) ∧
    (s.eb.isOpen = true → s.eb.startTime ≤ time → time - s.eb.startTime ≤ s.eb.dt →
      (∃ k, s.cfg.ebCap = .upTo k ∧ k ≤ s.eb.entries.length) →
      ∃ t, exec (.ebAdd dir chan time tot) s = .next t ∧ t.eb.status = 4 ∧ t.sink.trace = s.sink.trace) ∧
    (s.eb.isOpen = true → s.eb.startTime ≤ time → s.eb.dt < time - s.eb.startTime → s.sink.attached = true →
      ∃ t, exec (.ebAdd dir chan time tot) s = .next t ∧ (t.eb.status = 0 ∨ t.eb.status = 3)))

/-- 20_memory.md section 7: outside a reset of EB a step hands the sink at most one record, after all earlier ones. -/
def Obligations.AtMostOneRecordAStep : Prop :=
  ∀ s t : State, step s = .next t → (∀ dt sid a rest, s.host ≠ .resetEb dt sid a :: rest) →
    t.sink.trace = s.sink.trace ∨ ∃ r, t.sink.trace = s.sink.trace ++ [r]

/-- Each unit touches its own state only: 20_memory.md section 7 item 4, 60_exceptions.md section 3. No instruction changes
the parameters, the input stream or the pending inputs. -/
def Obligations.UnitsTouchTheirOwnStateOnly : Prop :=
  ∀ (i : Instr) (s t : State), exec i s = .next t →
    t.cfg = s.cfg ∧ t.inp = s.inp ∧ t.host = s.host ∧
    (i.unit ≠ .wc → t.wc = s.wc) ∧
    (i.unit ≠ .tord → t.tord = s.tord) ∧
    (i.unit ≠ .eb → t.eb = s.eb ∧ t.sink = s.sink)

/-- 20_memory.md section 7 item 4: the relative order of operations of two different units is unobservable. -/
def Obligations.OperationsOfTwoUnitsCommute : Prop :=
  ∀ (i j : Instr) (s a b : State), i.unit ≠ j.unit → exec i s = .next a → exec j s = .next b →
    ∃ t, exec j a = .next t ∧ exec i b = .next t

/-- 10_state.md sections 2 and 3: no operation writes the straps NCHAN and DT, and no step changes a parameter; only the
reset of the unit samples a strap. -/
def Obligations.StrapsAreReadOnly : Prop :=
  ∀ s t : State, step s = .next t →
    t.cfg = s.cfg ∧
    ((∀ n rest, s.host ≠ .resetTord n :: rest) → t.tord.nchan = s.tord.nchan) ∧
    ((∀ dt sid a rest, s.host ≠ .resetEb dt sid a :: rest) → t.eb.dt = s.eb.dt)

/-- 20_memory.md section 3: the instance's one byte order governs both the bytes of the records handed to the sink and the
words of the input stream. A flush adds to the sink's bytes those of its entries in that order, a forwarded record adds those of
its fields in it, and the eight bytes it gives a 64-bit field assemble, in the input stream, to that field's value. No step
changes it, and no instruction depends on it. Two points are the model's choice: the word's input leaves the list of pending
inputs (log entry 1), and WC's command register is written (log entry 10). -/
def Obligations.OneByteOrderGovernsBothSides : Prop :=
  ∀ s : State,
    let inOrder : List Byte → List Byte := fun l =>
      match s.cfg.byteOrder with
      | .little => l
      | .big => l.reverse
    let entryBytes : Entry → List Byte := fun e =>
      inOrder ((List.range 2).map fun j => e.tagword.extractLsb' (8 * j) 8) ++
      inOrder ((List.range 8).map fun j => e.time.extractLsb' (8 * j) 8) ++
      inOrder ((List.range 4).map fun j => e.tot.extractLsb' (8 * j) 8)
    let withOrder : ByteOrder → State → State := fun o t => { t with cfg := { t.cfg with byteOrder := o } }
    (s.eb.isOpen = true → s.sink.attached = true →
      ∃ t, exec .ebFlush s = .next t ∧ sinkBytes t = sinkBytes s ++ [s.eb.entries.flatMap entryBytes]) ∧
    (s.sink.attached = true →
      ∃ t, exec .ebWrite s = .next t ∧
        sinkBytes t = sinkBytes s ++ [s.eb.recIn.payload.flatMap (Field.bytes s.cfg.byteOrder)]) ∧
    (∀ (w : BitVec 64) (more : List Byte) (rest : List HostEvent), s.host = .nextWord :: rest → s.inp.offset = 0 →
      s.inp.bytes = inOrder ((List.range 8).map fun j => w.extractLsb' (8 * j) 8) ++ more →
      ∃ d, step s = exec (decodeWord s.cfg.tags w)
        { s with host := rest, inp := { s.inp with offset := 8 }, wc := { s.wc with cmd := d } }) ∧
    (∀ t, step s = .next t → t.cfg.byteOrder = s.cfg.byteOrder) ∧
    (∀ (i : Instr) (o : ByteOrder), exec i (withOrder o s) =
      match exec i s with
      | .next t => .next (withOrder o t)
      | .fault r => .fault r
      | .refused r => .refused r)
end

