-- ==== Sys2Proof/Laws/Bits.lean ====
section
/-! SUPPORT. What slicing, placing and appending bit fields come to (30_encoding.md R66). -/

namespace Sys2Proof

theorem getLsbD_slice {n : Nat} (w : BitVec n) (lo len i : Nat) :
    (slice w lo len).getLsbD i = (decide (i < len) && w.getLsbD (lo + i)) := by
  simp [slice]

theorem getLsbD_place {k : Nat} (n : Nat) (f : BitVec k) (lo i : Nat) :
    (place n f lo).getLsbD i = (decide (i < n) && decide (lo ≤ i) && f.getLsbD (i - lo)) := by
  simp only [place, BitVec.getLsbD_shiftLeft, BitVec.getLsbD_setWidth]
  by_cases h1 : i < n <;> by_cases h2 : i < lo
  · simp [h1, h2]
  · simp [h1, h2, Nat.le_of_not_lt h2, show i - lo < n by omega]
  · simp [h1]
  · simp [h1]

theorem slice_or {n : Nat} (a b : BitVec n) (lo len : Nat) :
    slice (a ||| b) lo len = slice a lo len ||| slice b lo len := by
  apply BitVec.eq_of_getLsbD_eq; intro i hi
  simp only [getLsbD_slice, BitVec.getLsbD_or, hi, decide_true, Bool.true_and]

theorem slice_and {n : Nat} (a b : BitVec n) (lo len : Nat) :
    slice (a &&& b) lo len = slice a lo len &&& slice b lo len := by
  apply BitVec.eq_of_getLsbD_eq; intro i hi
  simp only [getLsbD_slice, BitVec.getLsbD_and, hi, decide_true, Bool.true_and]

/-- A field reads back from where it was placed. -/
theorem slice_place_same {k : Nat} (n : Nat) (f : BitVec k) (lo : Nat) (h : lo + k ≤ n) :
    slice (place n f lo) lo k = f := by
  apply BitVec.eq_of_getLsbD_eq; intro i hi
  simp only [getLsbD_slice, getLsbD_place, hi, show lo + i < n by omega, Nat.le_add_right, Nat.add_sub_cancel_left,
    decide_true, Bool.true_and]

/-- A field placed elsewhere leaves zeros. -/
theorem slice_place_apart {k : Nat} (n : Nat) (f : BitVec k) (lo lo' len : Nat)
    (h : lo' + len ≤ lo ∨ lo + k ≤ lo') : slice (place n f lo) lo' len = 0 := by
  apply BitVec.eq_of_getLsbD_eq; intro i hi
  simp only [getLsbD_slice, getLsbD_place]
  rcases h with h | h
  · simp [show ¬ lo ≤ lo' + i by omega]
  · rw [BitVec.getLsbD_of_ge f (lo' + i - lo) (by omega)]; simp

theorem slice_slice {n : Nat} (w : BitVec n) (a m b k : Nat) (h : b + k ≤ m) :
    slice (slice w a m) b k = slice w (a + b) k := by
  apply BitVec.eq_of_getLsbD_eq; intro i hi
  simp only [getLsbD_slice, hi, show b + i < m by omega, Nat.add_assoc, decide_true, Bool.true_and]

theorem slice_whole {n : Nat} (w : BitVec n) : slice w 0 n = w := by
  apply BitVec.eq_of_getLsbD_eq; intro i hi
  simp only [getLsbD_slice, hi, Nat.zero_add, decide_true, Bool.true_and]

theorem slice_append_low {m n : Nat} (a : BitVec m) (b : BitVec n) (lo len : Nat) (h : lo + len ≤ n) :
    slice (a ++ b) lo len = slice b lo len := by
  apply BitVec.eq_of_getLsbD_eq; intro i hi
  simp only [getLsbD_slice, BitVec.getLsbD_append, show lo + i < n by omega, if_true]

theorem slice_append_high {m n : Nat} (a : BitVec m) (b : BitVec n) (lo len : Nat) (h : n ≤ lo) :
    slice (a ++ b) lo len = slice a (lo - n) len := by
  apply BitVec.eq_of_getLsbD_eq; intro i hi
  simp only [getLsbD_slice, BitVec.getLsbD_append, show ¬ lo + i < n by omega, if_false,
    show lo + i - n = lo - n + i by omega]

theorem slice_zero (n lo len : Nat) : slice (0 : BitVec n) lo len = 0 := by
  simp [slice]

/-- Two values that agree on a low part and on the part above it are equal. -/
theorem eq_of_slices {n : Nat} (x y : BitVec n) (k m : Nat) (h : n ≤ k + m)
    (hl : slice x 0 k = slice y 0 k) (hh : slice x k m = slice y k m) : x = y := by
  apply BitVec.eq_of_getLsbD_eq; intro i hi
  by_cases hk : i < k
  · have := congrArg (fun z => z.getLsbD i) hl
    simpa only [getLsbD_slice, hk, Nat.zero_add, decide_true, Bool.true_and] using this
  · have := congrArg (fun z => z.getLsbD (i - k)) hh
    simpa only [getLsbD_slice, show i - k < m by omega, show k + (i - k) = i by omega, decide_true, Bool.true_and] using this

end Sys2Proof
end

