-- ==== Sys2Proof/Laws/Codec.lean ====
section
/-! SUPPORT. What the word codec does arm by arm, and what stands in the words it writes (40_wordcodec.md R90 to R98). -/

namespace Sys2Proof

theorem Tags.distinct_iff (t : Tags) : t.distinct ↔
    (t.frameStart ≠ t.frameSize ∧ t.frameStart ≠ t.leading ∧ t.frameStart ≠ t.trailing) ∧
    (t.frameSize ≠ t.leading ∧ t.frameSize ≠ t.trailing) ∧ t.leading ≠ t.trailing := by
  simp [Tags.distinct]

theorem Tags.recognises_iff (t : Tags) (w : BitVec 64) : t.recognises w = true ↔
    slice w 58 6 = t.frameStart ∨ slice w 58 6 = t.frameSize ∨ slice w 58 6 = t.leading ∨ slice w 58 6 = t.trailing := by
  simp [Tags.recognises, slice]

/-! ## Decoding, by the tag -/

theorem datumOfWord_frameStart {t : Tags} {w : BitVec 64} (h : slice w 58 6 = t.frameStart) :
    datumOfWord t w = decodeFrameStart w := by
  rw [datumOfWord, if_pos h]

theorem datumOfWord_frameSize {t : Tags} {w : BitVec 64} (hd : t.distinct) (h : slice w 58 6 = t.frameSize) :
    datumOfWord t w = decodeFrameSize w := by
  rw [Tags.distinct_iff] at hd
  rw [datumOfWord, if_neg (by rw [h]; exact hd.1.1.symm), if_pos h]

theorem datumOfWord_edge {t : Tags} {w : BitVec 64} (hd : t.distinct) (d : Dir) (h : slice w 58 6 = t.edge d) :
    datumOfWord t w = decodeEdge d w := by
  rw [Tags.distinct_iff] at hd
  cases d
  · have h' : slice w 58 6 = t.leading := h
    rw [datumOfWord, if_neg (by rw [h']; exact hd.1.2.1.symm), if_neg (by rw [h']; exact hd.2.1.1.symm), if_pos h']
  · have h' : slice w 58 6 = t.trailing := h
    rw [datumOfWord, if_neg (by rw [h']; exact hd.1.2.2.symm), if_neg (by rw [h']; exact hd.2.1.2.symm),
      if_neg (by rw [h']; exact hd.2.2.symm), if_pos h']

theorem datumOfWord_unknown {t : Tags} {w : BitVec 64} (h : t.recognises w = false) :
    datumOfWord t w = .unrecognized w := by
  have h' : ¬ t.recognises w = true := by simp [h]
  rw [Tags.recognises_iff] at h'
  simp only [not_or] at h'
  rw [datumOfWord, if_neg h'.1, if_neg h'.2.1, if_neg h'.2.2.1, if_neg h'.2.2.2]

/-- Every word takes one of the four arms. -/
theorem tag_cases (t : Tags) (w : BitVec 64) :
    slice w 58 6 = t.frameStart ∨ slice w 58 6 = t.frameSize ∨ (∃ d, slice w 58 6 = t.edge d) ∨ t.recognises w = false := by
  by_cases h : t.recognises w = true
  · rcases (t.recognises_iff w).1 h with h | h | h | h
    · exact .inl h
    · exact .inr (.inl h)
    · exact .inr (.inr (.inl ⟨.leading, h⟩))
    · exact .inr (.inr (.inl ⟨.trailing, h⟩))
  · exact .inr (.inr (.inr (by simpa using h)))

/-! ## Encoding, by field -/

theorem fsizePayload_low (hi : BitVec 20 → BitVec 38) (s : BitVec 20) : slice (fsizePayload hi s) 0 20 = s := by
  rw [fsizePayload, slice_append_low _ _ _ _ (by decide), slice_whole]

theorem wordOfDatum_frameStart (t : Tags) (hi : BitVec 20 → BitVec 38) (f : BitVec 24) (o : BitVec 16) :
    slice (wordOfDatum t hi (.frameStart f o)) 58 6 = t.frameStart ∧
    slice (wordOfDatum t hi (.frameStart f o)) 40 18 = 0 ∧
    slice (wordOfDatum t hi (.frameStart f o)) 24 16 = o ∧
    slice (wordOfDatum t hi (.frameStart f o)) 0 24 = f := by
  simp only [wordOfDatum, slice_or]
  refine ⟨?_, ?_, ?_, ?_⟩
  · rw [slice_place_same _ t.frameStart _ (by decide), slice_place_apart _ o _ _ _ (by decide),
      slice_place_apart _ f _ _ _ (by decide)]; simp
  · rw [slice_place_apart _ t.frameStart _ _ _ (by decide), slice_place_apart _ o _ _ _ (by decide),
      slice_place_apart _ f _ _ _ (by decide)]; simp
  · rw [slice_place_apart _ t.frameStart _ _ _ (by decide), slice_place_same _ o _ (by decide),
      slice_place_apart _ f _ _ _ (by decide)]; simp
  · rw [slice_place_apart _ t.frameStart _ _ _ (by decide), slice_place_apart _ o _ _ _ (by decide),
      slice_place_same _ f _ (by decide)]; simp

theorem wordOfDatum_frameSize (t : Tags) (hi : BitVec 20 → BitVec 38) (s : BitVec 20) :
    slice (wordOfDatum t hi (.frameSize s)) 58 6 = t.frameSize ∧
    slice (wordOfDatum t hi (.frameSize s)) 0 58 = fsizePayload hi s ∧
    slice (wordOfDatum t hi (.frameSize s)) 0 20 = s := by
  have h : slice (wordOfDatum t hi (.frameSize s)) 0 58 = fsizePayload hi s := by
    simp only [wordOfDatum, slice_or]
    rw [slice_place_apart _ t.frameSize _ _ _ (by decide), slice_place_same _ (fsizePayload hi s) _ (by decide)]; simp
  refine ⟨?_, h, ?_⟩
  · simp only [wordOfDatum, slice_or]
    rw [slice_place_same _ t.frameSize _ (by decide), slice_place_apart _ (fsizePayload hi s) _ _ _ (by decide)]; simp
  · have hs := slice_slice (wordOfDatum t hi (.frameSize s)) 0 58 0 20 (by decide)
    rw [h, fsizePayload_low] at hs
    exact hs.symm

theorem wordOfDatum_edge (t : Tags) (hi : BitVec 20 → BitVec 38) (d : Dir) (c : BitVec 7) (x : BitVec 22)
    (tm : BitVec 29) :
    slice (wordOfDatum t hi (.edge d c x tm)) 58 6 = t.edge d ∧
    slice (wordOfDatum t hi (.edge d c x tm)) 51 7 = c ∧
    slice (wordOfDatum t hi (.edge d c x tm)) 29 22 = x ∧
    slice (wordOfDatum t hi (.edge d c x tm)) 0 29 = tm := by
  simp only [wordOfDatum, slice_or]
  refine ⟨?_, ?_, ?_, ?_⟩
  · rw [slice_place_same _ (t.edge d) _ (by decide), slice_place_apart _ c _ _ _ (by decide),
      slice_place_apart _ x _ _ _ (by decide), slice_place_apart _ tm _ _ _ (by decide)]; simp
  · rw [slice_place_apart _ (t.edge d) _ _ _ (by decide), slice_place_same _ c _ (by decide),
      slice_place_apart _ x _ _ _ (by decide), slice_place_apart _ tm _ _ _ (by decide)]; simp
  · rw [slice_place_apart _ (t.edge d) _ _ _ (by decide), slice_place_apart _ c _ _ _ (by decide),
      slice_place_same _ x _ (by decide), slice_place_apart _ tm _ _ _ (by decide)]; simp
  · rw [slice_place_apart _ (t.edge d) _ _ _ (by decide), slice_place_apart _ c _ _ _ (by decide),
      slice_place_apart _ x _ _ _ (by decide), slice_place_same _ tm _ (by decide)]; simp

/-! ## The datum register, by field -/

theorem register_fields (d : Datum) : slice d.register 0 64 = d.body ∧ slice d.register 64 3 = d.kind := by
  simp only [Datum.register, slice_or]
  constructor
  · rw [slice_place_apart _ d.kind _ _ _ (by decide), slice_place_same _ d.body _ (by decide)]; simp
  · rw [slice_place_same _ d.kind _ (by decide), slice_place_apart _ d.body _ _ _ (by decide)]; simp

theorem body_frameStart (f : BitVec 24) (o : BitVec 16) :
    slice (Datum.frameStart f o).body 40 24 = 0 ∧ slice (Datum.frameStart f o).body 24 16 = o ∧
    slice (Datum.frameStart f o).body 0 24 = f := by
  simp only [Datum.body, slice_or]
  refine ⟨?_, ?_, ?_⟩
  · rw [slice_place_apart _ o _ _ _ (by decide), slice_place_apart _ f _ _ _ (by decide)]; simp
  · rw [slice_place_same _ o _ (by decide), slice_place_apart _ f _ _ _ (by decide)]; simp
  · rw [slice_place_apart _ o _ _ _ (by decide), slice_place_same _ f _ (by decide)]; simp

theorem body_frameSize (s : BitVec 20) :
    slice (Datum.frameSize s).body 20 44 = 0 ∧ slice (Datum.frameSize s).body 0 20 = s := by
  simp only [Datum.body]
  exact ⟨slice_place_apart _ s _ _ _ (by decide), slice_place_same _ s _ (by decide)⟩

theorem body_edge (d : Dir) (c : BitVec 7) (x : BitVec 22) (tm : BitVec 29) :
    slice (Datum.edge d c x tm).body 58 6 = 0 ∧ slice (Datum.edge d c x tm).body 51 7 = c ∧
    slice (Datum.edge d c x tm).body 29 22 = x ∧ slice (Datum.edge d c x tm).body 0 29 = tm := by
  simp only [Datum.body, slice_or]
  refine ⟨?_, ?_, ?_, ?_⟩
  · rw [slice_place_apart _ c _ _ _ (by decide), slice_place_apart _ x _ _ _ (by decide),
      slice_place_apart _ tm _ _ _ (by decide)]; simp
  · rw [slice_place_same _ c _ (by decide), slice_place_apart _ x _ _ _ (by decide),
      slice_place_apart _ tm _ _ _ (by decide)]; simp
  · rw [slice_place_apart _ c _ _ _ (by decide), slice_place_same _ x _ (by decide),
      slice_place_apart _ tm _ _ _ (by decide)]; simp
  · rw [slice_place_apart _ c _ _ _ (by decide), slice_place_apart _ x _ _ _ (by decide),
      slice_place_same _ tm _ (by decide)]; simp

end Sys2Proof
end

