-- ==== Sys2Proof/Laws/Commands.lean ====
section
/-! SUPPORT. What the command decoder accepts (30_encoding.md R77, R78, R81). -/

namespace Sys2Proof

/-- All that an accepted descriptor says: its operation's code, the unit, the row's mask and match, the operands. -/
theorem decodeCommand_ok_iff (u : UnitId) (d : BitVec 128) (i : Instr) :
    decodeCommand u d = .ok i ↔
      ∃ op, Op.ofCode (slice d 124 4) = some op ∧ op.unit = u ∧ d &&& op.mask = op.pattern ∧ operandsOf op d = .ok i := by
  unfold decodeCommand
  cases h : Op.ofCode (slice d 124 4) with
  | none => simp
  | some op =>
    simp only [Option.some.injEq, exists_eq_left']
    by_cases hu : op.unit = u
    · by_cases hm : d &&& op.mask = op.pattern
      · simp [hu, hm]
      · simp [hu, hm]
    · simp [hu]

/-- A descriptor that matches an operation's row has the operation's code. -/
theorem ofCode_of_match (op : Op) (d : BitVec 128) (h : d &&& op.mask = op.pattern) :
    Op.ofCode (slice d 124 4) = some op := by
  have h4 : slice d 124 4 = slice op.pattern 124 4 := by
    rw [← h, slice_and]
    have : slice op.mask 124 4 = BitVec.allOnes 4 := by cases op <;> decide
    rw [this, BitVec.and_allOnes]
  rw [h4]; cases op <;> decide

/-- A descriptor that matches a row of the unit gives that row's operands. -/
theorem decodeCommand_of_match (op : Op) (d : BitVec 128) (h : d &&& op.mask = op.pattern) :
    decodeCommand op.unit d = operandsOf op d := by
  unfold decodeCommand
  rw [ofCode_of_match op d h]
  simp [h]

theorem dir_ofBit_bit (d : Dir) : Dir.ofBit d.bit = d := by
  cases d <;> decide

theorem dir_bit_ofBit : ∀ b : BitVec 1, (Dir.ofBit b).bit = b := by
  decide

end Sys2Proof
end

