-- ==== Sys2Proof/Laws/State.lean ====
section
/-! SUPPORT. One lemma per field per update of State, all true by definition. -/

namespace Sys2Proof.Machine

@[simp] theorem State.withWc_cfg (s : State) (x : WcState) : (s.withWc x).cfg = s.cfg := rfl
@[simp] theorem State.withWc_wc (s : State) (x : WcState) : (s.withWc x).wc = x := rfl
@[simp] theorem State.withWc_tord (s : State) (x : WcState) : (s.withWc x).tord = s.tord := rfl
@[simp] theorem State.withWc_eb (s : State) (x : WcState) : (s.withWc x).eb = s.eb := rfl
@[simp] theorem State.withWc_sink (s : State) (x : WcState) : (s.withWc x).sink = s.sink := rfl
@[simp] theorem State.withWc_inp (s : State) (x : WcState) : (s.withWc x).inp = s.inp := rfl
@[simp] theorem State.withWc_host (s : State) (x : WcState) : (s.withWc x).host = s.host := rfl
@[simp] theorem State.withWc_withWc (s : State) (x y : WcState) : (s.withWc x).withWc y = s.withWc y := rfl
@[simp] theorem State.withWc_self (s : State) : s.withWc s.wc = s := rfl

@[simp] theorem State.withTord_cfg (s : State) (x : TordState) : (s.withTord x).cfg = s.cfg := rfl
@[simp] theorem State.withTord_wc (s : State) (x : TordState) : (s.withTord x).wc = s.wc := rfl
@[simp] theorem State.withTord_tord (s : State) (x : TordState) : (s.withTord x).tord = x := rfl
@[simp] theorem State.withTord_eb (s : State) (x : TordState) : (s.withTord x).eb = s.eb := rfl
@[simp] theorem State.withTord_sink (s : State) (x : TordState) : (s.withTord x).sink = s.sink := rfl
@[simp] theorem State.withTord_inp (s : State) (x : TordState) : (s.withTord x).inp = s.inp := rfl
@[simp] theorem State.withTord_host (s : State) (x : TordState) : (s.withTord x).host = s.host := rfl
@[simp] theorem State.withTord_withTord (s : State) (x y : TordState) : (s.withTord x).withTord y = s.withTord y := rfl
@[simp] theorem State.withTord_self (s : State) : s.withTord s.tord = s := rfl

@[simp] theorem State.withEb_cfg (s : State) (x : EbState) : (s.withEb x).cfg = s.cfg := rfl
@[simp] theorem State.withEb_wc (s : State) (x : EbState) : (s.withEb x).wc = s.wc := rfl
@[simp] theorem State.withEb_tord (s : State) (x : EbState) : (s.withEb x).tord = s.tord := rfl
@[simp] theorem State.withEb_eb (s : State) (x : EbState) : (s.withEb x).eb = x := rfl
@[simp] theorem State.withEb_sink (s : State) (x : EbState) : (s.withEb x).sink = s.sink := rfl
@[simp] theorem State.withEb_inp (s : State) (x : EbState) : (s.withEb x).inp = s.inp := rfl
@[simp] theorem State.withEb_host (s : State) (x : EbState) : (s.withEb x).host = s.host := rfl
@[simp] theorem State.withEb_withEb (s : State) (x y : EbState) : (s.withEb x).withEb y = s.withEb y := rfl
@[simp] theorem State.withEb_self (s : State) : s.withEb s.eb = s := rfl

@[simp] theorem State.withSink_cfg (s : State) (x : SinkPort) : (s.withSink x).cfg = s.cfg := rfl
@[simp] theorem State.withSink_wc (s : State) (x : SinkPort) : (s.withSink x).wc = s.wc := rfl
@[simp] theorem State.withSink_tord (s : State) (x : SinkPort) : (s.withSink x).tord = s.tord := rfl
@[simp] theorem State.withSink_eb (s : State) (x : SinkPort) : (s.withSink x).eb = s.eb := rfl
@[simp] theorem State.withSink_sink (s : State) (x : SinkPort) : (s.withSink x).sink = x := rfl
@[simp] theorem State.withSink_inp (s : State) (x : SinkPort) : (s.withSink x).inp = s.inp := rfl
@[simp] theorem State.withSink_host (s : State) (x : SinkPort) : (s.withSink x).host = s.host := rfl
@[simp] theorem State.withSink_withSink (s : State) (x y : SinkPort) : (s.withSink x).withSink y = s.withSink y := rfl
@[simp] theorem State.withSink_self (s : State) : s.withSink s.sink = s := rfl

@[simp] theorem State.withInp_cfg (s : State) (x : InStream) : (s.withInp x).cfg = s.cfg := rfl
@[simp] theorem State.withInp_wc (s : State) (x : InStream) : (s.withInp x).wc = s.wc := rfl
@[simp] theorem State.withInp_tord (s : State) (x : InStream) : (s.withInp x).tord = s.tord := rfl
@[simp] theorem State.withInp_eb (s : State) (x : InStream) : (s.withInp x).eb = s.eb := rfl
@[simp] theorem State.withInp_sink (s : State) (x : InStream) : (s.withInp x).sink = s.sink := rfl
@[simp] theorem State.withInp_inp (s : State) (x : InStream) : (s.withInp x).inp = x := rfl
@[simp] theorem State.withInp_host (s : State) (x : InStream) : (s.withInp x).host = s.host := rfl
@[simp] theorem State.withInp_withInp (s : State) (x y : InStream) : (s.withInp x).withInp y = s.withInp y := rfl
@[simp] theorem State.withInp_self (s : State) : s.withInp s.inp = s := rfl

@[simp] theorem State.withHost_cfg (s : State) (x : List HostEvent) : (s.withHost x).cfg = s.cfg := rfl
@[simp] theorem State.withHost_wc (s : State) (x : List HostEvent) : (s.withHost x).wc = s.wc := rfl
@[simp] theorem State.withHost_tord (s : State) (x : List HostEvent) : (s.withHost x).tord = s.tord := rfl
@[simp] theorem State.withHost_eb (s : State) (x : List HostEvent) : (s.withHost x).eb = s.eb := rfl
@[simp] theorem State.withHost_sink (s : State) (x : List HostEvent) : (s.withHost x).sink = s.sink := rfl
@[simp] theorem State.withHost_inp (s : State) (x : List HostEvent) : (s.withHost x).inp = s.inp := rfl
@[simp] theorem State.withHost_host (s : State) (x : List HostEvent) : (s.withHost x).host = x := rfl
@[simp] theorem State.withHost_withHost (s : State) (x y : List HostEvent) : (s.withHost x).withHost y = s.withHost y := rfl
@[simp] theorem State.withHost_self (s : State) : s.withHost s.host = s := rfl

end Sys2Proof.Machine
end

