-- ==== Sys2Proof/Laws/Units.lean ====
section
/-! SUPPORT. What each shared operation can do, said once: the ends of an operation, the buffers, the sink, the arms of
`EB.ADD`, and the delivery of an input. -/

namespace Sys2Proof.Machine

/-! ## The ends of an operation -/

theorem okTord_eq (s : State) : okTord s = s.withTord { s.tord with status := 0, info := .none } := rfl

theorem okEb_eq (s : State) : okEb s = s.withEb { s.eb with status := 0, info := .none } := rfl

theorem raiseTord_eq (f : Status) (info : Info) (s : State) :
    raiseTord f info s = s.withTord { s.tord with status := f.code, info := info, fault := s.tord.fault ||| f.bit } := rfl

theorem raiseEb_eq (f : Status) (info : Info) (s : State) :
    raiseEb f info s = s.withEb { s.eb with status := f.code, info := info, fault := s.eb.fault ||| f.bit } := rfl

/-- A FAULT register only gains the bits of the fault raised (10_state.md R29). -/
theorem fault_and_or (a b : BitVec 5) : a &&& (a ||| b) = a := by
  apply BitVec.eq_of_getElem_eq
  intro i hi
  simp only [BitVec.getElem_and, BitVec.getElem_or]
  cases a[i] <;> simp

/-! ## The bytes of the sink's records -/

/-- A record handed to the sink adds its payload's bytes, in the instance's order, after those of all earlier ones. -/
theorem sinkBytes_pushRecord (r : Record) (s : State) :
    sinkBytes (pushRecord r s) = sinkBytes s ++ [r.payloadBytes s.cfg.byteOrder] := by
  simp [sinkBytes, pushRecord]

/-- The bytes depend on the trace and the byte order alone. -/
theorem sinkBytes_congr {s t : State} (ht : t.sink.trace = s.sink.trace) (hb : t.cfg.byteOrder = s.cfg.byteOrder) :
    sinkBytes t = sinkBytes s := by
  simp only [sinkBytes, ht, hb]

/-! ## Capacities -/

theorem Cap.full_eq_false_iff (c : Cap) (n : Nat) : Cap.full c n = false ↔ ∀ k, c = .upTo k → n < k := by
  cases c <;> simp [Cap.full]

theorem Cap.full_eq_true_iff (c : Cap) (n : Nat) : Cap.full c n = true ↔ ∃ k, c = .upTo k ∧ k ≤ n := by
  cases c <;> simp [Cap.full]

theorem Cap.holds_succ_of_not_full (c : Cap) (n : Nat) (h : Cap.full c n = false) : Cap.holds c (n + 1) := by
  cases c with
  | inf => trivial
  | upTo m => simpa [Cap.full] using h

/-! ## TO -/

/-- All that the body of `TO.ADD` can do. -/
theorem addHit_cases (h : Hit) (s : State) :
    (s.tord.nchan.val ≤ h.chan.toNat ∧ addHit h s = raiseTord .chanRange (.chan h.chan) s) ∨
    (h.chan.toNat < s.tord.nchan.val ∧ Cap.full s.cfg.toCap s.tord.held = true ∧
      addHit h s = raiseTord .capacity (.count s.tord.held) s) ∨
    (h.chan.toNat < s.tord.nchan.val ∧ Cap.full s.cfg.toCap s.tord.held = false ∧
      addHit h s = okTord (s.withTord { s.tord with
        buckets := s.tord.buckets.set h.chan.toNat (bucketAt s.tord.buckets h.chan.toNat ++ [h]) })) := by
  unfold addHit
  by_cases hc : s.tord.nchan.val ≤ h.chan.toNat
  · simp [hc]
  · cases hf : Cap.full s.cfg.toCap s.tord.held <;> simp [hc, Nat.lt_of_not_le hc]

/-! ## EB -/

/-- All that an append to the entry buffer can do. -/
theorem appendEntry_cases (e : Entry) (s : State) :
    (Cap.full s.cfg.ebCap s.eb.entries.length = true ∧
      appendEntry e s = raiseEb .capacity (.count s.eb.entries.length) s) ∨
    (Cap.full s.cfg.ebCap s.eb.entries.length = false ∧
      appendEntry e s = okEb (s.withEb { s.eb with entries := s.eb.entries ++ [e] })) := by
  unfold appendEntry
  cases Cap.full s.cfg.ebCap s.eb.entries.length <;> simp

/-- All that the opening of an event can do. -/
theorem openEvent_cases (e : Entry) (s : State) :
    (Cap.full s.cfg.ebCap s.eb.entries.length = true ∧
      openEvent e s = raiseEb .capacity (.count s.eb.entries.length) s) ∨
    (Cap.full s.cfg.ebCap s.eb.entries.length = false ∧
      openEvent e s = okEb (s.withEb { s.eb with
        startTime := e.time, entries := s.eb.entries ++ [e], isOpen := true })) := by
  unfold openEvent
  cases Cap.full s.cfg.ebCap s.eb.entries.length <;> simp

/-- All that a call of the sink can do. -/
theorem sinkWrite_next_iff (r : Record) (s t : State) (rest : State → State) :
    sinkWrite r s rest = .next t ↔
      s.sink.attached = true ∧
        ((s.sink.answer = .ok ∧ t = rest (pushRecord r s)) ∨
         (s.sink.answer = .fail ∧ t = raiseEb .sinkFail .none (pushRecord r s))) := by
  unfold sinkWrite
  cases s.sink.attached <;> cases s.sink.answer <;> simp [eq_comm]

/-- A call of the sink never answers a refusal, and a fault only without a sink. -/
theorem sinkWrite_fault_iff (r : Record) (s : State) (rest : State → State) :
    sinkWrite r s rest = .fault .noSink ↔ s.sink.attached = false := by
  unfold sinkWrite
  cases s.sink.attached <;> simp

/-- All that a flush of an Open event can do. -/
theorem flushThen_next_iff (s t : State) (rest : State → State) :
    flushThen s rest = .next t ↔
      s.sink.attached = true ∧
        ((s.sink.answer = .ok ∧ t = rest (pushRecord (eventRecord s) (clearEvent s))) ∨
         (s.sink.answer = .fail ∧ t = raiseEb .sinkFail .none (pushRecord (eventRecord s) (clearEvent s)))) :=
  sinkWrite_next_iff _ _ _ _

theorem addArm_opening (eb : EbState) (time : BitVec 64) (h : eb.isOpen = false) : addArm eb time = .opening := by
  simp [addArm, h]

theorem addArm_early (eb : EbState) (time : BitVec 64) (h : eb.isOpen = true)
    (ht : time.toNat < eb.startTime.toNat) : addArm eb time = .early := by
  simp [addArm, h, BitVec.lt_def, ht]

theorem addArm_inside (eb : EbState) (time : BitVec 64) (h : eb.isOpen = true)
    (ht : eb.startTime.toNat ≤ time.toNat) (hd : time.toNat - eb.startTime.toNat ≤ eb.dt.toNat) :
    addArm eb time = .inside := by
  have hs : (time - eb.startTime).toNat = time.toNat - eb.startTime.toNat :=
    BitVec.toNat_sub_of_le (BitVec.le_def.2 ht)
  simp [addArm, h, BitVec.lt_def, BitVec.le_def, hs, Nat.not_lt.2 ht, hd]

theorem addArm_overflow (eb : EbState) (time : BitVec 64) (h : eb.isOpen = true)
    (ht : eb.startTime.toNat ≤ time.toNat) (hd : eb.dt.toNat < time.toNat - eb.startTime.toNat) :
    addArm eb time = .overflow := by
  have hs : (time - eb.startTime).toNat = time.toNat - eb.startTime.toNat :=
    BitVec.toNat_sub_of_le (BitVec.le_def.2 ht)
  simp [addArm, h, BitVec.lt_def, BitVec.le_def, hs, Nat.not_lt.2 ht, Nat.not_le.2 hd]

/-- The four arms of `EB.ADD`, each with all that it says of the time. -/
theorem addArm_cases (eb : EbState) (time : BitVec 64) :
    (addArm eb time = .opening ∧ eb.isOpen = false) ∨
    (addArm eb time = .early ∧ eb.isOpen = true ∧ time.toNat < eb.startTime.toNat) ∨
    (addArm eb time = .inside ∧ eb.isOpen = true ∧ eb.startTime.toNat ≤ time.toNat ∧
      time.toNat - eb.startTime.toNat ≤ eb.dt.toNat) ∨
    (addArm eb time = .overflow ∧ eb.isOpen = true ∧ eb.startTime.toNat ≤ time.toNat ∧
      eb.dt.toNat < time.toNat - eb.startTime.toNat) := by
  cases ho : eb.isOpen with
  | false => exact .inl ⟨addArm_opening eb time ho, rfl⟩
  | true =>
    by_cases ht : time.toNat < eb.startTime.toNat
    · exact .inr (.inl ⟨addArm_early eb time ho ht, rfl, ht⟩)
    · have ht := Nat.le_of_not_lt ht
      by_cases hd : time.toNat - eb.startTime.toNat ≤ eb.dt.toNat
      · exact .inr (.inr (.inl ⟨addArm_inside eb time ho ht hd, rfl, ht, hd⟩))
      · exact .inr (.inr (.inr ⟨addArm_overflow eb time ho ht (Nat.lt_of_not_le hd), rfl, ht, Nat.lt_of_not_le hd⟩))

/-- All that `EB.ADD` can do. -/
theorem execEbAdd_next (dir : Dir) (chan : BitVec 15) (time : BitVec 64) (tot : BitVec 32) (s t : State)
    (h : execEbAdd dir chan time tot s = .next t) :
    (s.eb.isOpen = false ∧ t = openEvent (entryOfHit dir chan time tot) s) ∨
    (s.eb.isOpen = true ∧ time.toNat < s.eb.startTime.toNat ∧ t = raiseEb .order (.time time) s) ∨
    (s.eb.isOpen = true ∧ s.eb.startTime.toNat ≤ time.toNat ∧ time.toNat - s.eb.startTime.toNat ≤ s.eb.dt.toNat ∧
      t = appendEntry (entryOfHit dir chan time tot) s) ∨
    (s.eb.isOpen = true ∧ s.eb.startTime.toNat ≤ time.toNat ∧ s.eb.dt.toNat < time.toNat - s.eb.startTime.toNat ∧
      s.sink.attached = true ∧
        ((s.sink.answer = .ok ∧
          t = okEb ((pushRecord (eventRecord s) s).withEb { s.eb with
            startTime := time, entries := [entryOfHit dir chan time tot], isOpen := true })) ∨
         (s.sink.answer = .fail ∧ t = raiseEb .sinkFail .none (pushRecord (eventRecord s) (clearEvent s))))) := by
  unfold execEbAdd at h
  obtain ⟨ha, ho⟩ | ⟨ha, ho, ht⟩ | ⟨ha, ho, ht, hd⟩ | ⟨ha, ho, ht, hd⟩ := addArm_cases s.eb time
  · rw [ha] at h; cases h; exact .inl ⟨ho, rfl⟩
  · rw [ha] at h; cases h; exact .inr (.inl ⟨ho, ht, rfl⟩)
  · rw [ha] at h; cases h; exact .inr (.inr (.inl ⟨ho, ht, hd, rfl⟩))
  · rw [ha] at h
    obtain ⟨hk, hr⟩ := (flushThen_next_iff _ _ _).1 h
    refine .inr (.inr (.inr ⟨ho, ht, hd, hk, ?_⟩))
    obtain ⟨hr, rfl⟩ | ⟨hr, rfl⟩ := hr
    · exact .inl ⟨hr, rfl⟩
    · exact .inr ⟨hr, rfl⟩

/-- All that `EB.FB` can do. -/
theorem execEbFb_next (frame : BitVec 64) (s t : State) (h : execEbFb frame s = .next t) :
    (s.eb.isOpen = false ∧ s.cfg.fbPolicy = .drop ∧ t = okEb s) ∨
    ((s.eb.isOpen = true ∨ s.cfg.fbPolicy = .carry) ∧ t = appendEntry (marker frame) s) := by
  unfold execEbFb at h
  cases h
  by_cases hc : s.eb.isOpen = false ∧ s.cfg.fbPolicy = .drop
  · exact .inl ⟨hc.1, hc.2, if_pos hc⟩
  · refine .inr ⟨?_, if_neg hc⟩
    cases ho : s.eb.isOpen with
    | true => exact .inl rfl
    | false =>
      cases hp : s.cfg.fbPolicy with
      | carry => exact .inr rfl
      | drop => exact absurd ⟨ho, hp⟩ hc

/-- All that `EB.FLUSH` can do. -/
theorem execEbFlush_next (s t : State) (h : execEbFlush s = .next t) :
    (s.eb.isOpen = false ∧ t = okEb s) ∨
    (s.eb.isOpen = true ∧ s.sink.attached = true ∧
      ((s.sink.answer = .ok ∧ t = okEb (pushRecord (eventRecord s) (clearEvent s))) ∨
       (s.sink.answer = .fail ∧ t = raiseEb .sinkFail .none (pushRecord (eventRecord s) (clearEvent s))))) := by
  unfold execEbFlush at h
  cases ho : s.eb.isOpen with
  | false => rw [ho] at h; cases h; exact .inl ⟨rfl, rfl⟩
  | true => rw [ho] at h; exact .inr ⟨rfl, (flushThen_next_iff _ _ _).1 h⟩

/-- All that `EB.WRITE` can do. -/
theorem execEbWrite_next (s t : State) (h : execEbWrite s = .next t) :
    s.sink.attached = true ∧
      ((s.sink.answer = .ok ∧ t = okEb (pushRecord s.eb.recIn s)) ∨
       (s.sink.answer = .fail ∧ t = raiseEb .sinkFail .none (pushRecord s.eb.recIn s))) :=
  (sinkWrite_next_iff _ _ _ _).1 h

/-! ## Delivery -/

/-- All that the delivery of a command can do. -/
theorem decodePresented_cases (u : UnitId) (d : BitVec 128) (s : State) :
    (∃ i, decodeCommand u d = .ok i ∧ decodePresented u d s = .run i s) ∨
    (∃ e, decodeCommand u d = .error e ∧ decodePresented u d s = .done (illegalOp u s)) := by
  unfold decodePresented
  cases decodeCommand u d <;> simp

/-- All that the word assembler can do. -/
theorem fetchWord_cases (s : State) :
    (s.inp.bytes.length < s.inp.offset + 8 ∧ fetchWord s = .done s) ∨
    (s.inp.offset + 8 ≤ s.inp.bytes.length ∧
      ∃ w, wordAt s.cfg.byteOrder s.inp.bytes s.inp.offset = some w ∧
        fetchWord s = .run (decodeWord s.cfg.tags w) (presentWord w s)) := by
  unfold fetchWord wordAt
  by_cases h : s.inp.offset + 8 ≤ s.inp.bytes.length
  · simp [h]
  · simp [h, Nat.lt_of_not_le h]

/-- The instruction that a command decodes to belongs to the unit of the port. -/
theorem decodeCommand_unit (u : UnitId) (d : BitVec 128) (i : Instr) (h : decodeCommand u d = .ok i) : i.unit = u := by
  obtain ⟨op, -, rfl, -, ho⟩ := (decodeCommand_ok_iff u d i).1 h
  cases op with
  | wcEnc =>
    simp only [operandsOf] at ho
    split at ho <;> cases ho
    rfl
  | _ => cases ho; rfl

/-- A word of the stream goes to WC. -/
theorem decodeWord_unit (t : Tags) (w : BitVec 64) : (decodeWord t w).unit = .wc := by
  unfold decodeWord
  cases datumOfWord t w with
  | edge d _ _ _ => cases d <;> rfl
  | _ => rfl

end Sys2Proof.Machine
end

