-- ==== Sys2Proof/Laws/Frame.lean ====
section
/-! SUPPORT. What an instruction of each unit can do to the state, and what a step can be, said once for all instructions and
all inputs. -/

namespace Sys2Proof.Machine

/-- How a TO instruction can end (60_exceptions.md R160): the status and the FAULT register. -/
abbrev TordEnd (x y : TordState) : Prop :=
  (y.status = 0 ∧ y.fault = x.fault) ∨
  (y.status = 1 ∧ y.fault = x.fault ||| 0b00001) ∨
  (y.status = 4 ∧ y.fault = x.fault ||| 0b01000)

/-- How an EB instruction can end (60_exceptions.md R160): the status and the FAULT register. -/
abbrev EbEnd (x y : EbState) : Prop :=
  (y.status = 0 ∧ y.fault = x.fault) ∨
  (y.status = 2 ∧ y.fault = x.fault ||| 0b00010) ∨
  (y.status = 3 ∧ y.fault = x.fault ||| 0b00100) ∨
  (y.status = 4 ∧ y.fault = x.fault ||| 0b01000)

/-- An instruction of WC writes WC only. -/
theorem exec_wc (i : Instr) (s t : State) (h : exec i s = .next t) (hu : i.unit = .wc) :
    ∃ x, t = s.withWc x ∧ x.status = 0 := by
  cases i <;> simp only [Instr.unit, reduceCtorEq] at hu <;> cases h <;> exact ⟨_, rfl, rfl⟩

/-- An instruction of TO writes TO only, and not its strap. -/
theorem exec_tord (i : Instr) (s t : State) (h : exec i s = .next t) (hu : i.unit = .tord) :
    ∃ x, t = s.withTord x ∧ x.nchan = s.tord.nchan ∧ TordEnd s.tord x := by
  cases i <;> simp only [Instr.unit, reduceCtorEq] at hu <;> cases h
  · rename_i d c x y
    obtain ⟨-, h⟩ | ⟨-, -, h⟩ | ⟨-, -, h⟩ := addHit_cases ⟨d, c, x, y⟩ s
    · exact ⟨_, h, rfl, .inr (.inl ⟨rfl, rfl⟩)⟩
    · exact ⟨_, h, rfl, .inr (.inr ⟨rfl, rfl⟩)⟩
    · exact ⟨_, h, rfl, .inl ⟨rfl, rfl⟩⟩
  · exact ⟨_, rfl, rfl, .inl ⟨rfl, rfl⟩⟩

theorem appendEntry_end (e : Entry) (s : State) :
    ∃ x, appendEntry e s = s.withEb x ∧ x.dt = s.eb.dt ∧ EbEnd s.eb x := by
  obtain ⟨-, h⟩ | ⟨-, h⟩ := appendEntry_cases e s <;> rw [h]
  · exact ⟨_, rfl, rfl, .inr (.inr (.inr ⟨rfl, rfl⟩))⟩
  · exact ⟨_, rfl, rfl, .inl ⟨rfl, rfl⟩⟩

theorem openEvent_end (e : Entry) (s : State) :
    ∃ x, openEvent e s = s.withEb x ∧ x.dt = s.eb.dt ∧ EbEnd s.eb x := by
  obtain ⟨-, h⟩ | ⟨-, h⟩ := openEvent_cases e s <;> rw [h]
  · exact ⟨_, rfl, rfl, .inr (.inr (.inr ⟨rfl, rfl⟩))⟩
  · exact ⟨_, rfl, rfl, .inl ⟨rfl, rfl⟩⟩

/-- An instruction of EB writes EB and the sink's trace only, not its strap, and sends at most one record. -/
theorem exec_eb (i : Instr) (s t : State) (h : exec i s = .next t) (hu : i.unit = .eb) :
    ∃ x y, t = (s.withEb x).withSink y ∧ x.dt = s.eb.dt ∧ y.answer = s.sink.answer ∧ y.attached = s.sink.attached ∧
      (y.trace = s.sink.trace ∨ ∃ r, y.trace = s.sink.trace ++ [r]) ∧ EbEnd s.eb x := by
  cases i <;> simp only [Instr.unit, reduceCtorEq] at hu
  case ebAdd d c x y =>
    obtain ⟨-, rfl⟩ | ⟨-, -, rfl⟩ | ⟨-, -, -, rfl⟩ | ⟨-, -, -, -, ⟨-, rfl⟩ | ⟨-, rfl⟩⟩ := execEbAdd_next _ _ _ _ _ _ h
    · obtain ⟨z, h1, h2, h3⟩ := openEvent_end (entryOfHit d c x y) s
      exact ⟨z, s.sink, h1, h2, rfl, rfl, .inl rfl, h3⟩
    · exact ⟨(raiseEb .order (.time x) s).eb, s.sink, rfl, rfl, rfl, rfl, .inl rfl, .inr (.inl ⟨rfl, rfl⟩)⟩
    · obtain ⟨z, h1, h2, h3⟩ := appendEntry_end (entryOfHit d c x y) s
      exact ⟨z, s.sink, h1, h2, rfl, rfl, .inl rfl, h3⟩
    · exact ⟨_, _, rfl, rfl, rfl, rfl, .inr ⟨_, rfl⟩, .inl ⟨rfl, rfl⟩⟩
    · exact ⟨_, _, rfl, rfl, rfl, rfl, .inr ⟨_, rfl⟩, .inr (.inr (.inl ⟨rfl, rfl⟩))⟩
  case ebFb f =>
    obtain ⟨-, -, rfl⟩ | ⟨-, rfl⟩ := execEbFb_next _ _ _ h
    · exact ⟨(okEb s).eb, s.sink, rfl, rfl, rfl, rfl, .inl rfl, .inl ⟨rfl, rfl⟩⟩
    · obtain ⟨z, h1, h2, h3⟩ := appendEntry_end (marker f) s
      exact ⟨z, s.sink, h1, h2, rfl, rfl, .inl rfl, h3⟩
  case ebFlush =>
    obtain ⟨-, rfl⟩ | ⟨-, -, ⟨-, rfl⟩ | ⟨-, rfl⟩⟩ := execEbFlush_next _ _ h
    · exact ⟨(okEb s).eb, s.sink, rfl, rfl, rfl, rfl, .inl rfl, .inl ⟨rfl, rfl⟩⟩
    · exact ⟨_, _, rfl, rfl, rfl, rfl, .inr ⟨_, rfl⟩, .inl ⟨rfl, rfl⟩⟩
    · exact ⟨_, _, rfl, rfl, rfl, rfl, .inr ⟨_, rfl⟩, .inr (.inr (.inl ⟨rfl, rfl⟩))⟩
  case ebWrite =>
    obtain ⟨-, ⟨-, rfl⟩ | ⟨-, rfl⟩⟩ := execEbWrite_next _ _ h
    · exact ⟨_, _, rfl, rfl, rfl, rfl, .inr ⟨_, rfl⟩, .inl ⟨rfl, rfl⟩⟩
    · exact ⟨_, _, rfl, rfl, rfl, rfl, .inr ⟨_, rfl⟩, .inr (.inr (.inl ⟨rfl, rfl⟩))⟩
  case ebSetsid z =>
    cases h
    exact ⟨(okEb (s.withEb { s.eb with sid := z })).eb, s.sink, rfl, rfl, rfl, rfl, .inl rfl, .inl ⟨rfl, rfl⟩⟩

/-- A call of an attached sink answers a next state. -/
theorem sinkWrite_total (r : Record) (s : State) (rest : State → State) (h : s.sink.attached = true) :
    ∃ t, sinkWrite r s rest = .next t := by
  unfold sinkWrite; rw [h]; exact ⟨_, rfl⟩

/-- With a sink every instruction answers a next state. -/
theorem exec_total (i : Instr) (s : State) (h : s.sink.attached = true) : ∃ t, exec i s = .next t := by
  cases i
  case ebAdd d c x y =>
    obtain ⟨ha, -⟩ | ⟨ha, -⟩ | ⟨ha, -⟩ | ⟨ha, -⟩ := addArm_cases s.eb x <;> simp only [exec, execEbAdd, ha]
    · exact ⟨_, rfl⟩
    · exact ⟨_, rfl⟩
    · exact ⟨_, rfl⟩
    · exact sinkWrite_total _ _ _ h
  case ebFlush =>
    simp only [exec, execEbFlush]
    cases s.eb.isOpen
    · exact ⟨_, rfl⟩
    · exact sinkWrite_total _ _ _ h
  case ebWrite => exact sinkWrite_total _ _ _ h
  all_goals exact ⟨_, rfl⟩

/-- The input `e` presents an instruction of a unit: the state it then runs from. -/
abbrev Presents (e : HostEvent) (s : State) (i : Instr) (t : State) : Prop :=
  (∃ d, e = .wcCommand d ∧ decodeCommand .wc d = .ok i ∧ t = presentWc d s) ∨
  (∃ d, e = .tordCommand d ∧ decodeCommand .tord d = .ok i ∧ t = presentTord d s) ∨
  (∃ d r a, e = .ebCommand d r a ∧ decodeCommand .eb d = .ok i ∧ t = presentEb d r a s) ∨
  (∃ w, e = .nextWord ∧ wordAt s.cfg.byteOrder s.inp.bytes s.inp.offset = some w ∧
    s.inp.offset + 8 ≤ s.inp.bytes.length ∧ i = decodeWord s.cfg.tags w ∧ t = presentWord w s)

/-- The input `e` runs no instruction: the state it leaves. -/
abbrev Settles (e : HostEvent) (s t : State) : Prop :=
  (∃ d x, e = .wcCommand d ∧ decodeCommand .wc d = .error x ∧ t = illegalOp .wc (presentWc d s)) ∨
  (∃ d x, e = .tordCommand d ∧ decodeCommand .tord d = .error x ∧ t = illegalOp .tord (presentTord d s)) ∨
  (∃ d r a x, e = .ebCommand d r a ∧ decodeCommand .eb d = .error x ∧ t = illegalOp .eb (presentEb d r a s)) ∨
  (e = .nextWord ∧ s.inp.bytes.length < s.inp.offset + 8 ∧ t = s) ∨
  (∃ b, e = .stream b ∧ t = s.withInp { bytes := b, offset := 0 }) ∨
  (∃ n, e = .resetTord n ∧ t = resetTord n s) ∨
  (∃ x y z, e = .resetEb x y z ∧ t = resetEb x y z s)

/-- All that the delivery of one input can do. -/
theorem deliver_cases (e : HostEvent) (s : State) :
    (∃ i t, Presents e s i t ∧ deliver e s = .run i t) ∨ (∃ t, Settles e s t ∧ deliver e s = .done t) := by
  cases e with
  | wcCommand d =>
    obtain ⟨i, hi, h⟩ | ⟨x, hi, h⟩ := decodePresented_cases .wc d (presentWc d s)
    · exact .inl ⟨i, _, .inl ⟨d, rfl, hi, rfl⟩, h⟩
    · exact .inr ⟨_, .inl ⟨d, x, rfl, hi, rfl⟩, h⟩
  | tordCommand d =>
    obtain ⟨i, hi, h⟩ | ⟨x, hi, h⟩ := decodePresented_cases .tord d (presentTord d s)
    · exact .inl ⟨i, _, .inr (.inl ⟨d, rfl, hi, rfl⟩), h⟩
    · exact .inr ⟨_, .inr (.inl ⟨d, x, rfl, hi, rfl⟩), h⟩
  | ebCommand d r a =>
    obtain ⟨i, hi, h⟩ | ⟨x, hi, h⟩ := decodePresented_cases .eb d (presentEb d r a s)
    · exact .inl ⟨i, _, .inr (.inr (.inl ⟨d, r, a, rfl, hi, rfl⟩)), h⟩
    · exact .inr ⟨_, .inr (.inr (.inl ⟨d, r, a, x, rfl, hi, rfl⟩)), h⟩
  | nextWord =>
    obtain ⟨hl, h⟩ | ⟨hl, w, hw, h⟩ := fetchWord_cases s
    · exact .inr ⟨s, .inr (.inr (.inr (.inl ⟨rfl, hl, rfl⟩))), h⟩
    · exact .inl ⟨_, _, .inr (.inr (.inr ⟨w, rfl, hw, hl, rfl, rfl⟩)), h⟩
  | stream b => exact .inr ⟨_, .inr (.inr (.inr (.inr (.inl ⟨b, rfl, rfl⟩)))), rfl⟩
  | resetTord n => exact .inr ⟨_, .inr (.inr (.inr (.inr (.inr (.inl ⟨n, rfl, rfl⟩))))), rfl⟩
  | resetEb x y z => exact .inr ⟨_, .inr (.inr (.inr (.inr (.inr (.inr ⟨x, y, z, rfl, rfl⟩))))), rfl⟩

/-- All that a step can be. -/
theorem step_cases (s : State) :
    (s.host = [] ∧ step s = .next s) ∨
    (∃ e rest, s.host = e :: rest ∧
      ((∃ i t, Presents e (s.withHost rest) i t ∧ step s = exec i t) ∨
       (∃ t, Settles e (s.withHost rest) t ∧ step s = .next t))) := by
  cases hh : s.host with
  | nil => exact .inl ⟨rfl, by simp [step, fetch, hh]⟩
  | cons e rest =>
    refine .inr ⟨e, rest, rfl, ?_⟩
    have hf : fetch s = deliver e (s.withHost rest) := by simp only [fetch, hh]
    obtain ⟨i, t, hp, hd⟩ | ⟨t, hp, hd⟩ := deliver_cases e (s.withHost rest)
    · exact .inl ⟨i, t, hp, by simp only [step, hf, hd]⟩
    · exact .inr ⟨t, hp, by simp only [step, hf, hd]⟩

/-- The instruction presented belongs to the unit of its port. -/
theorem Presents.instr_unit {e : HostEvent} {s t : State} {i : Instr} (h : Presents e s i t) :
    (∃ d, e = .tordCommand d ∧ i.unit = .tord) ∨ (∃ d r a, e = .ebCommand d r a ∧ i.unit = .eb) ∨ i.unit = .wc := by
  obtain ⟨d, rfl, h, -⟩ | ⟨d, rfl, h, -⟩ | ⟨d, r, a, rfl, h, -⟩ | ⟨w, rfl, -, -, rfl, -⟩ := h
  · exact .inr (.inr (decodeCommand_unit _ _ _ h))
  · exact .inl ⟨d, rfl, decodeCommand_unit _ _ _ h⟩
  · exact .inr (.inl ⟨d, r, a, rfl, decodeCommand_unit _ _ _ h⟩)
  · exact .inr (.inr (decodeWord_unit _ _))

end Sys2Proof.Machine
end

