-- ==== Sys2Proof/Laws/PerInstr.lean ====
section
/-! SUPPORT. Statements about every instruction, one lemma per constructor. -/

namespace Sys2Proof.Laws

/-- The descriptor of a command goes to the port of the unit that runs it, and bits [3:2] of its `op` field name that unit
(30_encoding.md R77). A word of the input stream has no descriptor. -/
def OpNamesUnit.Statement (i : Instr) : Prop :=
  ∀ (t : Tags) (hi : BitVec 20 → BitVec 38) (u : UnitId) (d : BitVec 128),
    encode t hi i = .command u d → u = i.unit ∧ UnitId.ofBits (slice d 126 2) = i.unit

/-- Operands below bit 126 leave the unit bits of an operation's match value as they are. -/
theorem unitBits_or {k : Nat} (d : BitVec 128) (f : BitVec k) (lo : Nat) (h : lo + k ≤ 126) :
    slice (d ||| place 128 f lo) 126 2 = slice d 126 2 := by
  rw [slice_or, slice_place_apart 128 f lo 126 2 (.inr h)]
  exact BitVec.or_zero

theorem unitBits_hitDescriptor (op : Op) (dir : Dir) (chan : BitVec 15) (time : BitVec 64) (tot : BitVec 32) :
    slice (hitDescriptor op dir chan time tot) 126 2 = slice op.pattern 126 2 := by
  unfold hitDescriptor
  rw [unitBits_or _ _ _ (by decide), unitBits_or _ _ _ (by decide), unitBits_or _ _ _ (by decide),
    unitBits_or _ _ _ (by decide)]

theorem OpNamesUnit.wcDec (word : BitVec 64) : OpNamesUnit.Statement (.wcDec word) := by
  intro t hi u d h
  cases h
  exact ⟨rfl, by rw [unitBits_or _ _ _ (by decide)]; rfl⟩

theorem OpNamesUnit.wcEnc (datum : Datum) : OpNamesUnit.Statement (.wcEnc datum) := by
  intro t hi u d h
  cases h
  exact ⟨rfl, by rw [unitBits_or _ _ _ (by decide)]; rfl⟩

theorem OpNamesUnit.toAdd (dir : Dir) (chan : BitVec 15) (time : BitVec 64) (tot : BitVec 32) :
    OpNamesUnit.Statement (.toAdd dir chan time tot) := by
  intro t hi u d h
  cases h
  exact ⟨rfl, by rw [unitBits_hitDescriptor]; rfl⟩

theorem OpNamesUnit.toMerge : OpNamesUnit.Statement .toMerge := by
  intro t hi u d h
  cases h
  exact ⟨rfl, by decide⟩

theorem OpNamesUnit.ebAdd (dir : Dir) (chan : BitVec 15) (time : BitVec 64) (tot : BitVec 32) :
    OpNamesUnit.Statement (.ebAdd dir chan time tot) := by
  intro t hi u d h
  cases h
  exact ⟨rfl, by rw [unitBits_hitDescriptor]; rfl⟩

theorem OpNamesUnit.ebFb (frame : BitVec 64) : OpNamesUnit.Statement (.ebFb frame) := by
  intro t hi u d h
  cases h
  exact ⟨rfl, by rw [unitBits_or _ _ _ (by decide)]; rfl⟩

theorem OpNamesUnit.ebFlush : OpNamesUnit.Statement .ebFlush := by
  intro t hi u d h
  cases h
  exact ⟨rfl, by decide⟩

theorem OpNamesUnit.ebWrite : OpNamesUnit.Statement .ebWrite := by
  intro t hi u d h
  cases h
  exact ⟨rfl, by decide⟩

theorem OpNamesUnit.ebSetsid (sid : BitVec 32) : OpNamesUnit.Statement (.ebSetsid sid) := by
  intro t hi u d h
  cases h
  exact ⟨rfl, by rw [unitBits_or _ _ _ (by decide)]; rfl⟩

theorem OpNamesUnit.frameStart (frameNumber : BitVec 24) (timeOffset : BitVec 16) :
    OpNamesUnit.Statement (.frameStart frameNumber timeOffset) := by
  intro t hi u d h
  cases h

theorem OpNamesUnit.frameSize (dataSize : BitVec 20) : OpNamesUnit.Statement (.frameSize dataSize) := by
  intro t hi u d h
  cases h

theorem OpNamesUnit.edgeLeading (channel : BitVec 7) (tot : BitVec 22) (time : BitVec 29) :
    OpNamesUnit.Statement (.edgeLeading channel tot time) := by
  intro t hi u d h
  cases h

theorem OpNamesUnit.edgeTrailing (channel : BitVec 7) (tot : BitVec 22) (time : BitVec 29) :
    OpNamesUnit.Statement (.edgeTrailing channel tot time) := by
  intro t hi u d h
  cases h

theorem OpNamesUnit.unrecognized (word : BitVec 64) : OpNamesUnit.Statement (.unrecognized word) := by
  intro t hi u d h
  cases h

end Sys2Proof.Laws
end

