-- ==== Sys2Proof/Laws/Spaces.lean ====
section
/-! SUPPORT. Every operation keeps the form of the data spaces, `Memory.wf`, and reset has it. -/

namespace Sys2Proof.Machine

/-! ## Buckets -/

theorem bucketAt_set_self (bs : List (List Hit)) (c : Nat) (b : List Hit) (h : c < bs.length) :
    bucketAt (bs.set c b) c = b := by
  simp [bucketAt, List.getD_eq_getElem?_getD, h]

theorem bucketAt_set_ne (bs : List (List Hit)) (c d : Nat) (b : List Hit) (h : c ≠ d) :
    bucketAt (bs.set c b) d = bucketAt bs d := by
  simp [bucketAt, List.getD_eq_getElem?_getD, h]

theorem bucketAt_replicate (n c : Nat) : bucketAt (List.replicate n []) c = [] := by
  simp only [bucketAt, List.getD_eq_getElem?_getD, List.getElem?_replicate]
  split <;> rfl

/-- Empty buckets hold no hits. -/
theorem heldHits_replicate (n m : Nat) : heldHits n (List.replicate m []) = 0 := by
  simp only [heldHits, bucketAt_replicate, List.length_nil]
  simp

/-- An append to a bucket adds one to the count. -/
theorem heldHits_append (n : Nat) (bs : List (List Hit)) (c : Nat) (h : Hit) (hc : c < n) (hl : c < bs.length) :
    heldHits n (bs.set c (bucketAt bs c ++ [h])) = heldHits n bs + 1 := by
  induction n with
  | zero => omega
  | succ n ih =>
    simp only [heldHits, List.range_succ, List.map_append, List.sum_append, List.map_cons, List.map_nil, List.sum_cons,
      List.sum_nil, Nat.add_zero] at ih ⊢
    by_cases he : c = n
    · subst he
      rw [bucketAt_set_self bs c _ hl]
      have hs : ((List.range c).map fun d => (bucketAt (bs.set c (bucketAt bs c ++ [h])) d).length) =
          (List.range c).map fun d => (bucketAt bs d).length := by
        apply List.map_congr_left
        intro d hd
        rw [bucketAt_set_ne bs c d _ (by simp at hd; omega)]
      rw [hs, List.length_append]
      simp [Nat.add_assoc]
    · rw [ih (by omega), bucketAt_set_ne bs c n _ he]
      omega

/-! ## The form of the data spaces -/

/-- The form depends on TO's spaces and on the input stream alone. -/
theorem Memory.wf_congr {s t : State} (hn : t.tord.nchan = s.tord.nchan) (hb : t.tord.buckets = s.tord.buckets)
    (hc : t.tord.cur = s.tord.cur) (hi : t.inp = s.inp) (h : Memory.wf s) : Memory.wf t := by
  simpa only [Memory.wf, hn, hb, hc, hi] using h

/-- Empty buckets with cursors at 0 have the form. -/
theorem Memory.wf_empty (s : State) (x : TordState) (hb : x.buckets = List.replicate x.nchan.val [])
    (hc : x.cur = List.replicate x.nchan.val 0) (h : Memory.wf s) : Memory.wf (s.withTord x) := by
  refine ⟨by simp [hb], by simp [hc], ?_, h.2.2.2⟩
  intro c _ k hk
  simp only [State.withTord_tord, hb, bucketAt_replicate, List.not_mem_nil] at hk

theorem Memory.wf_addHit (k : Hit) (s : State) (h : Memory.wf s) : Memory.wf (addHit k s) := by
  obtain ⟨-, he⟩ | ⟨-, -, he⟩ | ⟨hc, -, he⟩ := addHit_cases k s <;> rw [he]
  · exact h
  · exact h
  · obtain ⟨hl, hr, hh, hi⟩ := h
    refine ⟨by simpa [okTord] using hl, by simpa [okTord] using hr, ?_, hi⟩
    intro c hcl g hg
    simp only [okTord, State.withTord_tord, List.length_set] at hcl hg
    by_cases hk : k.chan.toNat = c
    · subst hk
      rw [bucketAt_set_self _ _ _ hcl, List.mem_append, List.mem_singleton] at hg
      obtain hg | rfl := hg
      · exact hh _ hcl g hg
      · rfl
    · rw [bucketAt_set_ne _ _ _ _ hk] at hg
      exact hh c hcl g hg

theorem Memory.wf_mergeAll (s : State) (h : Memory.wf s) : Memory.wf (mergeAll s) :=
  Memory.wf_empty s _ rfl rfl h

theorem Memory.wf_resetTord (n : Fin 32769) (s : State) (h : Memory.wf s) : Memory.wf (resetTord n s) :=
  Memory.wf_empty s _ rfl rfl h

theorem Memory.wf_presentWord (w : BitVec 64) (s : State) (h : Memory.wf s)
    (hl : s.inp.offset + 8 ≤ s.inp.bytes.length) : Memory.wf (presentWord w s) := by
  obtain ⟨h1, h2, h3, -, h5⟩ := h
  exact ⟨h1, h2, h3, hl, by simp only [presentWord, State.withInp_inp]; omega⟩

theorem Memory.wf_stream (b : List Byte) (s : State) (h : Memory.wf s) :
    Memory.wf (s.withInp { bytes := b, offset := 0 }) :=
  ⟨h.1, h.2.1, h.2.2.1, Nat.zero_le _, rfl⟩

/-- Every instruction keeps the form. -/
theorem Memory.wf_exec (i : Instr) (s t : State) (h : exec i s = .next t) (hw : Memory.wf s) : Memory.wf t := by
  cases hu : i.unit with
  | wc => obtain ⟨x, rfl, -⟩ := exec_wc i s t h hu; exact hw
  | eb => obtain ⟨x, y, rfl, -⟩ := exec_eb i s t h hu; exact hw
  | tord =>
    cases i <;> simp only [Instr.unit, reduceCtorEq] at hu <;> cases h
    · exact Memory.wf_addHit _ s hw
    · exact Memory.wf_mergeAll s hw

/-- Every step keeps the form. -/
theorem Memory.wf_step (s t : State) (h : step s = .next t) (hw : Memory.wf s) : Memory.wf t := by
  obtain ⟨-, hs⟩ | ⟨e, rest, -, ⟨i, x, hp, hs⟩ | ⟨x, hp, hs⟩⟩ := step_cases s
  · rw [hs] at h; cases h; exact hw
  · rw [hs] at h
    refine Memory.wf_exec i x t h ?_
    obtain ⟨d, -, -, rfl⟩ | ⟨d, -, -, rfl⟩ | ⟨d, r, a, -, -, rfl⟩ | ⟨w, -, -, hl, -, rfl⟩ := hp
    · exact hw
    · exact hw
    · exact hw
    · exact Memory.wf_presentWord w _ hw hl
  · rw [hs] at h; cases h
    obtain ⟨d, -, -, -, rfl⟩ | ⟨d, -, -, -, rfl⟩ | ⟨d, r, a, -, -, -, rfl⟩ | ⟨-, -, rfl⟩ | ⟨b, -, rfl⟩ | ⟨n, -, rfl⟩ |
      ⟨y, z, a, -, rfl⟩ := hp
    · exact hw
    · exact hw
    · exact hw
    · exact hw
    · exact Memory.wf_stream b _ hw
    · exact Memory.wf_resetTord n _ hw
    · exact hw

/-- Reset has the form. -/
theorem Memory.wf_reset : Memory.wf State.reset := by
  refine ⟨by simp [State.reset, TordState.reset], rfl, ?_, Nat.le_refl _, rfl⟩
  intro c _ k hk
  simp only [State.reset, TordState.reset, bucketAt_replicate, List.not_mem_nil] at hk

end Sys2Proof.Machine
end

