-- ==== Sys2Proof/Machine/Assembly.lean ====
section
/-! DEFINITION. The written form of a command (30_encoding.md R80) and of a datum (R75). Numbers are written in decimal
(00_scope.md R8 allows it): DESIGN CHOICE, log entry 18. No step reads it. -/

namespace Sys2Proof.Machine

/-- The two braces, which no string literal of this package may hold. -/
def inBraces (s : String) : String :=
  String.singleton (Char.ofNat 123) ++ s ++ String.singleton (Char.ofNat 125)

/-- An unsigned number in decimal (00_scope.md R8). -/
def num {n : Nat} (v : BitVec n) : String :=
  toString v.toNat

/-- `L` or `T` (R80). -/
def dirLetter : Dir → String
  | .leading => "L"
  | .trailing => "T"

/-- `Leading` or `Trailing` (R75). -/
def dirWord : Dir → String
  | .leading => "Leading"
  | .trailing => "Trailing"

/-- The prose form of a datum (R75). -/
def datumText : Datum → String
  | .frameStart f o => "FrameStart" ++ inBraces ("frame_number=" ++ num f ++ ", time_offset=" ++ num o)
  | .frameSize s => "FrameSize" ++ inBraces ("data_size=" ++ num s)
  | .edge d c x t =>
    "Edge" ++ inBraces (dirWord d ++ ", channel=" ++ num c ++ ", time_over_threshold=" ++ num x ++ ", time=" ++ num t)
  | .unrecognized w => "Unrecognized" ++ inBraces ("word=" ++ num w)

/-- A payload field as `(w,v)` (R80). -/
def fieldText : Field → String
  | .f16 v => "(16," ++ num v ++ ")"
  | .f32 v => "(32," ++ num v ++ ")"
  | .f64 v => "(64," ++ num v ++ ")"

/-- A record (R80). -/
def recordText (r : Record) : String :=
  let hdr := match r.header with
    | none => "none"
    | some h => inBraces ("ts=" ++ num h.timestamp ++ ", sid=" ++ num h.sourceId ++ ", bar=" ++ num h.barrierType)
  "Rec" ++ inBraces ("type=" ++ num r.type ++ ", hdr=" ++ hdr ++
    ", payload=[" ++ String.intercalate ", " (r.payload.map fieldText) ++ "]")

/-- The operands of a hit in the source's argument order (R80). -/
def hitText (dir : Dir) (chan : BitVec 15) (time : BitVec 64) (tot : BitVec 32) : String :=
  dirLetter dir ++ ", " ++ num chan ++ ", " ++ num time ++ ", " ++ num tot

/-- A command on one line, with the record on the record-input port for `EB.WRITE` (R80); a data word is no command. -/
def commandText (r : Record) : Instr → Option String
  | .wcDec w => some ("WC.DEC " ++ num w)
  | .wcEnc x => some ("WC.ENC " ++ datumText x)
  | .toAdd dir chan time tot => some ("TO.ADD " ++ hitText dir chan time tot)
  | .toMerge => some "TO.MERGE"
  | .ebAdd dir chan time tot => some ("EB.ADD " ++ hitText dir chan time tot)
  | .ebFb f => some ("EB.FB " ++ num f)
  | .ebFlush => some "EB.FLUSH"
  | .ebWrite => some ("EB.WRITE " ++ recordText r)
  | .ebSetsid sid => some ("EB.SETSID " ++ num sid)
  | .frameStart _ _ => none
  | .frameSize _ => none
  | .edgeLeading _ _ _ => none
  | .edgeTrailing _ _ _ => none
  | .unrecognized _ => none

/-- The shorthand `EB.FEED` (R80): one `EB.ADD` for each hit, in order. -/
def ebFeed (hs : List Hit) : List Instr :=
  hs.map fun h => .ebAdd h.dir h.chan h.time h.tot

end Sys2Proof.Machine
end

