-- ==== Sys2Proof/Tests/Slice0.lean ====
section
/-! SUPPORT. Tests whose expected results are those of spec/95_test_vectors.md (vector named at each), the smoke test of
WellFormed, and a witness for the hypotheses of every statement. The tags are the test instantiation of its section 0
(PRESUMED, log entry 19). -/

namespace Sys2Proof.Tests

open Sys2Proof.Machine

/-! ## Small states -/

/-- The test instantiation (95_test_vectors.md section 0). -/
def tags : Tags := ⟨0x1C, 0x1E, 0x0B, 0x0D⟩

def params : Params :=
  { tags := tags, byteOrder := .little, eventType := 30, eventBarrier := 0, toCap := .inf, ebCap := .inf, fbPolicy := .drop }

/-- NCHAN = 2, DT = 100, SID_INIT = 1, everything in its reset state, the sink attached and answering ok. -/
def fresh : State :=
  { cfg := params
    wc := WcState.reset
    tord := TordState.reset 2
    eb := EbState.reset 100 1
    sink := { trace := [], attached := true, answer := .ok }
    inp := { bytes := [], offset := 0 }
    host := [] }

/-- A leading hit with tot 0. -/
def hit (chan : BitVec 15) (time : BitVec 64) : Hit := { dir := .leading, chan := chan, time := time, tot := 0 }

/-- An entry with tot 0. -/
def entry (tagword : BitVec 16) (time : BitVec 64) : Entry := { tagword := tagword, time := time, tot := 0 }

/-- EB Open at time 50 with the one entry of vector E3. -/
def opened : State :=
  fresh.withEb { fresh.eb with isOpen := true, startTime := 50, entries := [entry 0 50] }

/-- The buckets of scenario S8. -/
def loaded : State :=
  fresh.withTord { fresh.tord with buckets := [[hit 0 10, hit 0 30], [hit 1 20, hit 1 40]] }

def withCaps (toCap ebCap : Cap) (s : State) : State := { s with cfg := { s.cfg with toCap := toCap, ebCap := ebCap } }

def withPolicy (p : FbPolicy) (s : State) : State := { s with cfg := { s.cfg with fbPolicy := p } }

/-- The state of an instance with another byte order. -/
def withOrder (o : ByteOrder) (s : State) : State := { s with cfg := { s.cfg with byteOrder := o } }

/-- The sink answers `fail`. -/
def failing (s : State) : State := s.withSink { s.sink with answer := .fail }

/-- EB without a sink. -/
def detached (s : State) : State := s.withSink { s.sink with attached := false }

/-- One input pending. -/
def pending (e : HostEvent) (s : State) : State := s.withHost [e]

/-- What a test looks at in the next state, none where there is no next state. -/
def after {α : Type} (o : Host.Outcome State Fault Refusal) (f : State → α) : Option α :=
  match o with
  | .next t => some (f t)
  | .fault _ => none
  | .refused _ => none

/-- The control record `BEGIN` of program P3. -/
def begin : Record := { type := 1, header := none, payload := [.f32 7] }

/-! ## WellFormed -/

/-- An Unrecognized word with a recognised tag is no well-formed instruction (R64). -/
theorem test_wellFormed_refuses_each_tag :
    Instr.wellFormed tags (.unrecognized 0x7000000000000000) = false ∧
    Instr.wellFormed tags (.unrecognized 0x7800000000000000) = false ∧
    Instr.wellFormed tags (.unrecognized 0x2C280053400003E8) = false ∧
    Instr.wellFormed tags (.unrecognized 0x3400000000000000) = false ∧
    Instr.wellFormed tags (.unrecognized 0x3000000000000000) = true := by decide

/-! ## Decoding, each word written out from its layout -/

/-- op 0 at [127:124], word at [63:0]. -/
theorem test_decode_wcDec :
    decodeCommand .wc 0x00000000000000002C280053400003E8 = .ok (.wcDec 0x2C280053400003E8) := by decide

/-- W2: op 1, kind 3 at [66:64], body at [63:0]. -/
theorem test_decode_wcEnc :
    decodeCommand .wc 0x100000000000000300280053400003E8 = .ok (.wcEnc (.edge .trailing 5 666 1000)) := by decide

/-- The other kinds: W14, W19 and W26. -/
theorem test_decode_wcEnc_kinds :
    decodeCommand .wc 0x1000000000000000000000123400000A = .ok (.wcEnc (.frameStart 10 0x1234)) ∧
    decodeCommand .wc 0x10000000000000010000000000012345 = .ok (.wcEnc (.frameSize 0x12345)) ∧
    decodeCommand .wc 0x1000000000000004FFFFFFFFFFFFFFFF = .ok (.wcEnc (.unrecognized 0xFFFFFFFFFFFFFFFF)) := by decide

/-- T9: op 4, dir at [123], chan at [110:96], tot at [95:64], time at [63:0]. -/
theorem test_decode_toAdd :
    decodeCommand .tord 0x4800007F000000090000000000000007 = .ok (.toAdd .trailing 127 7 9) := by decide

theorem test_decode_toMerge : decodeCommand .tord 0x50000000000000000000000000000000 = .ok .toMerge := by decide

/-- S6. -/
theorem test_decode_ebAdd :
    decodeCommand .eb 0x800000010000029A0000000000000032 = .ok (.ebAdd .leading 1 50 666) := by decide

/-- S7. -/
theorem test_decode_ebFb : decodeCommand .eb 0x9000000000000000000000000000000A = .ok (.ebFb 10) := by decide

theorem test_decode_ebFlush : decodeCommand .eb 0xA0000000000000000000000000000000 = .ok .ebFlush := by decide

theorem test_decode_ebWrite : decodeCommand .eb 0xB0000000000000000000000000000000 = .ok .ebWrite := by decide

/-- E10. -/
theorem test_decode_ebSetsid : decodeCommand .eb 0xC0000000000000000000000000000009 = .ok (.ebSetsid 9) := by decide

/-- W23: bits [57:40] are ignored. -/
theorem test_decode_frameStart : decodeWord tags 0x73FFFF123400000A = .frameStart 10 0x1234 := by decide

/-- W24: bits [57:20] are ignored. -/
theorem test_decode_frameSize : decodeWord tags 0x7BFFFFFFFFF12345 = .frameSize 0x12345 := by decide

/-- W1. -/
theorem test_decode_edgeLeading : decodeWord tags 0x2C280053400003E8 = .edgeLeading 5 666 1000 := by decide

/-- W13. -/
theorem test_decode_edgeTrailing : decodeWord tags 0x3428005340000682 = .edgeTrailing 5 666 1666 := by decide

/-- W29 and W30: the tags next to the recognised ones. -/
theorem test_decode_unrecognized :
    decodeWord tags 0x3000000000000000 = .unrecognized 0x3000000000000000 ∧
    decodeWord tags 0x7400000000000000 = .unrecognized 0x7400000000000000 := by decide

/-- E22: the refused commands at the EB port. -/
theorem test_decode_refuses_at_eb :
    decodeCommand .eb 0x60000000000000000000000000000000 = .error .reservedOp ∧
    decodeCommand .eb 0x4000000000000000000000000000000A = .error .wrongUnit ∧
    decodeCommand .eb 0x80008001000000010000000000000005 = .error .reservedBits ∧
    decodeCommand .eb 0xA0000000000000000000000000000001 = .error .reservedBits ∧
    decodeCommand .eb 0xC0000000000000010000000000000002 = .error .reservedBits ∧
    decodeCommand .eb 0xC0000000000000000000000100000002 = .error .reservedBits := by decide

/-- W32 to W36: the refused data of WC.ENC. -/
theorem test_decode_refuses_at_wc :
    decodeCommand .wc 0x10000000000000050000000000000000 = .error .illFormedDatum ∧
    decodeCommand .wc 0x10000000000000022C280053400003E8 = .error .illFormedDatum ∧
    decodeCommand .wc 0x10000000000000010000000000100000 = .error .illFormedDatum ∧
    decodeCommand .wc 0x10000000000000000000010000000000 = .error .illFormedDatum ∧
    decodeCommand .wc 0x10000000000000080000000000000000 = .error .reservedBits := by decide

/-! ## One step of each command -/

/-- W1. -/
theorem test_wcDec : after (exec (.wcDec 0x2C280053400003E8) fresh) (fun t => (t.wc.datum, t.wc.status)) =
    some (.edge .leading 5 666 1000, 0) := by decide

/-- W5: every field at its maximum. -/
theorem test_wcDec_maxima : after (exec (.wcDec 0x2FFFFFFFFFFFFFFF) fresh) (fun t => t.wc.datum) =
    some (.edge .leading 127 0x3FFFFF 0x1FFFFFFF) := by decide

/-- W13. -/
theorem test_wcEnc : after (exec (.wcEnc (.edge .trailing 5 666 1666)) fresh) (fun t => (t.wc.word, t.wc.status)) =
    some (0x3428005340000682, 0) := by decide

/-- W16. -/
theorem test_wcEnc_frameStart : after (exec (.wcEnc (.frameStart 0xFFFFFF 0xFFFF)) fresh) (fun t => t.wc.word) =
    some 0x700000FFFFFFFFFF := by decide

/-- T5: the channel NCHAN is out of range. -/
theorem test_toAdd_chanRange : after (exec (.toAdd .leading 2 5 0) fresh) (fun t => (t.tord.status, t.tord.fault, t.tord.buckets)) =
    some (1, 0b00001, [[], []]) := by decide

/-- T10: a full TO refuses the third hit. -/
theorem test_toAdd_capacity :
    after (exec (.toAdd .leading 0 50 0) (withCaps (.upTo 4) .inf loaded)) (fun t => (t.tord.status, t.tord.fault, t.tord.info)) =
    some (4, 0b01000, .count 4) := by decide

/-- S8. -/
theorem test_toMerge : after (exec .toMerge loaded) (fun t => (t.tord.hits, t.tord.buckets)) =
    some ([hit 0 10, hit 1 20, hit 0 30, hit 1 40], [[], []]) := by decide

/-- T1, on two channels, and T7: the lower channel first on a tie, and a bucket that is not monotone taken as it is. -/
theorem test_toMerge_ties_and_disorder :
    mergedHits 2 [[hit 0 5], [hit 1 5]] = [hit 0 5, hit 1 5] ∧
    mergedHits 2 [[hit 0 30, hit 0 10], [hit 1 20]] = [hit 1 20, hit 0 30, hit 0 10] := by decide

/-- E3: `150 - 50 = 100` is inside. -/
theorem test_ebAdd_inside : after (exec (.ebAdd .leading 1 150 0) opened) (fun t => (t.eb.entries, t.sink.trace)) =
    some ([entry 0 50, entry 1 150], []) := by decide

/-- E3: `151 - 50 = 101` is outside; the record carries the old event. -/
theorem test_ebAdd_overflow :
    after (exec (.ebAdd .leading 2 151 0) opened) (fun t => (t.eb.startTime, t.eb.entries, t.sink.trace)) =
    some (151, [entry 2 151],
      [{ type := 30, header := some ⟨50, 1, 0⟩, payload := [.f16 0, .f64 50, .f32 0] }]) := by decide

/-- E6 and E7: a marker while Empty, dropped or carried. -/
theorem test_ebFb_empty :
    after (exec (.ebFb 7) fresh) (fun t => t.eb.entries) = some [] ∧
    after (exec (.ebFb 7) (withPolicy .carry fresh)) (fun t => t.eb.entries) = some [⟨0xFFFF, 7, 0xFFFFFFFF⟩] := by decide

/-- E19: a marker while Open is appended whatever its number. -/
theorem test_ebFb_open :
    after (exec (.ebFb 0xFFFFFFFFFFFFFFFF) opened) (fun t => (t.eb.entries, t.eb.isOpen, t.eb.startTime)) =
    some ([entry 0 50, ⟨0xFFFF, 0xFFFFFFFFFFFFFFFF, 0xFFFFFFFF⟩], true, 50) := by decide

/-- E16: a flush of nothing calls no sink. -/
theorem test_ebFlush_empty : after (exec .ebFlush fresh) (fun t => (t.eb.status, t.sink.trace)) = some (0, []) := by decide

/-- E12: a failing sink still ends the event. -/
theorem test_ebFlush_fail :
    after (exec .ebFlush (failing opened)) (fun t => (t.eb.status, t.eb.fault, t.eb.isOpen, t.eb.entries, t.sink.trace.length)) =
    some (3, 0b00100, false, [], 1) := by decide

/-- E11: a forwarded record overtakes the Open event. -/
theorem test_ebWrite :
    after (exec .ebWrite (opened.withEb { opened.eb with recIn := begin })) (fun t => (t.sink.trace, t.eb.isOpen, t.eb.entries)) =
    some ([begin], true, [entry 0 50]) := by decide

/-- E14: a failing sink leaves the accumulator alone. -/
theorem test_ebWrite_fail :
    after (exec .ebWrite (failing opened)) (fun t => (t.eb.status, t.eb.fault, t.eb.entries)) =
    some (3, 0b00100, [entry 0 50]) := by decide

/-- E10. -/
theorem test_ebSetsid : after (exec (.ebSetsid 9) opened) (fun t => (t.eb.sid, t.eb.entries)) =
    some (9, [entry 0 50]) := by decide

/-! ## The data words, a stream, a record's bytes, the written form -/

/-- Row 2 of program P1: the bytes of a word, little end first, then the word's datum. -/
theorem test_stream_word :
    after (step (pending .nextWord (fresh.withInp { bytes := [0xe8, 0x03, 0x00, 0x40, 0x53, 0x00, 0x28, 0x2c], offset := 0 })))
      (fun t => (t.wc.datum, t.inp.offset)) = some (.edge .leading 5 666 1000, 8) := by decide

/-- The same word under `big` (20_memory.md R41). -/
theorem test_word_big :
    wordOfBytes .big [0x2c, 0x28, 0x00, 0x53, 0x40, 0x00, 0x03, 0xe8] = 0x2C280053400003E8 := by decide

/-- P1: the last 3 of 43 bytes are no word. -/
theorem test_stream_ends : wordAt .little (List.replicate 43 0) 40 = none := by decide

/-- S6: the payload bytes of the record, in both orders. -/
theorem test_payload_bytes :
    Record.payloadBytes .little ⟨0, none, payloadOf [⟨1, 50, 666⟩]⟩ =
      [0x01, 0x00, 0x32, 0x00, 0x00, 0x00, 0x00, 0x00, 0x00, 0x00, 0x9a, 0x02, 0x00, 0x00] ∧
    Record.payloadBytes .big ⟨0, none, payloadOf [⟨1, 50, 666⟩]⟩ =
      [0x00, 0x01, 0x00, 0x00, 0x00, 0x00, 0x00, 0x00, 0x00, 0x32, 0x00, 0x00, 0x02, 0x9a] := by decide

/-- S6's entry as an Open event of an instance under `big`: the flush gives the sink its bytes in that order. -/
theorem test_sink_bytes_big :
    after (exec .ebFlush (withOrder .big (opened.withEb { opened.eb with entries := [⟨1, 50, 666⟩] }))) sinkBytes =
      some [[0x00, 0x01, 0x00, 0x00, 0x00, 0x00, 0x00, 0x00, 0x00, 0x32, 0x00, 0x00, 0x02, 0x9a]] := by decide

/-- E15: the tag words. -/
theorem test_tagwords :
    tagword .trailing 32767 = 0xFFFF ∧ tagword .trailing 5 = 0x8005 ∧ tagword .leading 32767 = 0x7FFF := by decide

/-- A placed word is fetched and run as the next instruction. -/
theorem test_withFetchWord :
    after (step (fresh.withFetchWord 64 0x700000123400000A)) (fun t => t.wc.datum) = some (.frameStart 10 0x1234) ∧
    after (step (fresh.withFetchWord 128 0x9000000000000000000000000000000A)) (fun t => t.eb.cmd) =
      some 0x9000000000000000000000000000000A := by decide

/-- E22: a refused command sets the status and the sticky bit and nothing else of the accumulator. -/
theorem test_illegal_command :
    after (step (pending (.ebCommand 0xA0000000000000000000000000000001 begin .ok) opened))
      (fun t => (t.eb.status, t.eb.fault, t.eb.isOpen, t.eb.entries, t.sink.trace)) =
    some (5, 0b10000, true, [entry 0 50], []) := by decide

/-! ## Witnesses: for each statement with hypotheses, a state and operands that meet them together, at the boundary values of
each clause -/

/-- FrameStartArmReadsItsFields: W23, with W14 as the word that differs in ignored bits only. -/
theorem witness_FrameStartArmReadsItsFields :
    (0x73FFFF123400000A : BitVec 64).extractLsb' 58 6 = fresh.cfg.tags.frameStart ∧
    (0x700000123400000A : BitVec 64) &&& 0xFC0000FFFFFFFFFF = 0x73FFFF123400000A &&& 0xFC0000FFFFFFFFFF := by decide

/-- FrameSizeArmReadsItsField: W24, with W19 as the word that differs in ignored bits only. -/
theorem witness_FrameSizeArmReadsItsField :
    fresh.cfg.tags.distinct ∧ (0x7BFFFFFFFFF12345 : BitVec 64).extractLsb' 58 6 = fresh.cfg.tags.frameSize ∧
    (0x7800000000012345 : BitVec 64) &&& 0xFC000000000FFFFF = 0x7BFFFFFFFFF12345 &&& 0xFC000000000FFFFF := by decide

/-- EdgeArmReadsItsFields: W5 and W6, every field at its maximum. -/
theorem witness_EdgeArmReadsItsFields :
    fresh.cfg.tags.distinct ∧
    (0x2FFFFFFFFFFFFFFF : BitVec 64).extractLsb' 58 6 = fresh.cfg.tags.edge .leading ∧
    (0x37FFFFFFFFFFFFFF : BitVec 64).extractLsb' 58 6 = fresh.cfg.tags.edge .trailing := by decide

/-- UnknownTagKeepsTheWord: W26, W27 and W29. -/
theorem witness_UnknownTagKeepsTheWord :
    let four := [fresh.cfg.tags.frameStart, fresh.cfg.tags.frameSize, fresh.cfg.tags.leading, fresh.cfg.tags.trailing]
    (0xFFFFFFFFFFFFFFFF : BitVec 64).extractLsb' 58 6 ∉ four ∧ (0 : BitVec 64).extractLsb' 58 6 ∉ four ∧
    (0x3000000000000000 : BitVec 64).extractLsb' 58 6 ∉ four := by decide

/-- WcEncAnswersTheWord, its clause of the ill-formed register: W32 and W34. -/
theorem witness_WcEncAnswersTheWord :
    datumOfRegister 0x50000000000000000 = none ∧ datumOfRegister 0x10000000000100000 = none := by decide

/-- CodecRoundTrip: a valid datum, and W31 for the clause of the invalid one. -/
theorem witness_CodecRoundTrip :
    fresh.cfg.tags.distinct ∧ Datum.valid fresh.cfg.tags (.frameStart 0xFFFFFF 0xFFFF) = true ∧
    Datum.valid fresh.cfg.tags (.unrecognized 0x2C280053400003E8) = false := by decide

/-- TagAloneDecidesTheVariant: W1 and W5 under the Leading tag, W2 and W6 under the Trailing tag. -/
theorem witness_TagAloneDecidesTheVariant :
    fresh.cfg.tags.distinct ∧
    (0x2C280053400003E8 : BitVec 64).extractLsb' 58 6 = (0x2FFFFFFFFFFFFFFF : BitVec 64).extractLsb' 58 6 ∧
    (0x34280053400003E8 : BitVec 64).extractLsb' 58 6 = (0x37FFFFFFFFFFFFFF : BitVec 64).extractLsb' 58 6 := by decide

/-- WordRoundTripWhere, with a word for each alternative: W25, W1, W2, W14, and W23 for none. -/
theorem witness_WordRoundTripWhere :
    fresh.cfg.tags.distinct ∧ fresh.cfg.tags.recognises 0x0123456789ABCDEF = false ∧
    (0x2C280053400003E8 : BitVec 64).extractLsb' 58 6 = fresh.cfg.tags.leading ∧
    (0x34280053400003E8 : BitVec 64).extractLsb' 58 6 = fresh.cfg.tags.trailing ∧
    (0x700000123400000A : BitVec 64).extractLsb' 40 18 = 0 ∧
    (0x73FFFF123400000A : BitVec 64).extractLsb' 40 18 ≠ 0 := by decide

/-- WcKeepsNothing: two different states with equal parameters. -/
theorem witness_WcKeepsNothing : fresh.cfg = opened.cfg ∧ fresh.eb.isOpen ≠ opened.eb.isOpen := by decide

/-- StreamWordIsAssembled: the last 8 bytes of a stream of 16. -/
theorem witness_StreamWordIsAssembled :
    ∃ s : State, s.host = .nextWord :: [] ∧ s.inp.offset = 8 * 1 ∧ 8 * 1 + 8 ≤ s.inp.bytes.length :=
  ⟨pending .nextWord (fresh.withInp { bytes := List.replicate 16 1, offset := 8 }), rfl, rfl, by decide⟩

/-- PartialWordEndsTheStream: 7 bytes left, none left, and 8 left before a partial word. -/
theorem witness_PartialWordEndsTheStream :
    (∃ s : State, s.host = .nextWord :: [] ∧ s.inp.offset = 8 * 1 ∧ s.inp.bytes.length = 19 ∧
      8 * 1 + 8 ≤ s.inp.bytes.length) ∧
    (∃ s : State, s.host = .nextWord :: [] ∧ s.inp.offset = 8 * 1 ∧ s.inp.bytes.length = 15 ∧
      s.inp.bytes.length < 8 * 1 + 8) ∧
    (∃ s : State, s.host = .nextWord :: [] ∧ s.inp.offset = 8 * 0 ∧ s.inp.bytes.length < 8 * 0 + 8) :=
  ⟨⟨pending .nextWord (fresh.withInp { bytes := List.replicate 19 1, offset := 8 }), rfl, rfl, rfl, by decide⟩,
   ⟨pending .nextWord (fresh.withInp { bytes := List.replicate 15 1, offset := 8 }), rfl, rfl, rfl, by decide⟩,
   ⟨pending .nextWord fresh, rfl, rfl, by decide⟩⟩

/-- DescriptorsMatchTheRows: a descriptor for each row, operand bits all 1 where the row leaves them free. -/
theorem witness_DescriptorsMatchTheRows :
    (0x0000000000000000FFFFFFFFFFFFFFFF : BitVec 128) &&& 0xFFFFFFFFFFFFFFFF0000000000000000 = 0 ∧
    (0x1000000000000004FFFFFFFFFFFFFFFF : BitVec 128) &&& 0xFFFFFFFFFFFFFFF80000000000000000 =
      0x10000000000000000000000000000000 ∧
    datumOfRegister ((0x1000000000000004FFFFFFFFFFFFFFFF : BitVec 128).extractLsb' 0 67) =
      some (.unrecognized 0xFFFFFFFFFFFFFFFF) ∧
    (0x48007FFFFFFFFFFFFFFFFFFFFFFFFFFF : BitVec 128) &&& 0xF7FF8000000000000000000000000000 =
      0x40000000000000000000000000000000 ∧
    (0x88007FFFFFFFFFFFFFFFFFFFFFFFFFFF : BitVec 128) &&& 0xF7FF8000000000000000000000000000 =
      0x80000000000000000000000000000000 ∧
    (0x9000000000000000FFFFFFFFFFFFFFFF : BitVec 128) &&& 0xFFFFFFFFFFFFFFFF0000000000000000 =
      0x90000000000000000000000000000000 ∧
    (0xC00000000000000000000000FFFFFFFF : BitVec 128) &&& 0xFFFFFFFFFFFFFFFFFFFFFFFF00000000 =
      0xC0000000000000000000000000000000 ∧
    decodeCommand .wc 0x0000000000000000FFFFFFFFFFFFFFFF = .ok (.wcDec 0xFFFFFFFFFFFFFFFF) ∧
    decodeCommand .tord 0x50000000000000000000000000000000 = .ok .toMerge ∧
    decodeCommand .eb 0xA0000000000000000000000000000000 = .ok .ebFlush ∧
    decodeCommand .eb 0xB0000000000000000000000000000000 = .ok .ebWrite := by decide

/-- DecodeOfEncode: an instruction with every operand at its maximum, and a word with no recognised tag. -/
theorem witness_DecodeOfEncode :
    tags.distinct ∧ Instr.wellFormed tags (.ebAdd .trailing 32767 0xFFFFFFFFFFFFFFFF 0xFFFFFFFF) = true ∧
    Instr.wellFormed tags (.unrecognized 0xFFFFFFFFFFFFFFFF) = true := by decide

/-- PlacedInstructionRunsNext: a command and a data word. -/
theorem witness_PlacedInstructionRunsNext :
    fresh.cfg.tags.distinct ∧ Instr.wellFormed fresh.cfg.tags (.ebFb 0xFFFFFFFFFFFFFFFF) = true ∧
    Instr.wellFormed fresh.cfg.tags (.frameStart 0xFFFFFF 0xFFFF) = true := by decide

/-- EncodeOfDecode: a descriptor with every operand bit at 1. -/
theorem witness_EncodeOfDecode :
    decodeCommand .eb 0x88007FFFFFFFFFFFFFFFFFFFFFFFFFFF =
      .ok (.ebAdd .trailing 32767 0xFFFFFFFFFFFFFFFF 0xFFFFFFFF) := by decide

/-- StepRunsTheDecodedCommand: one command pending at each port. -/
theorem witness_StepRunsTheDecodedCommand :
    ((pending (.wcCommand 0) fresh).host = .wcCommand 0 :: [] ∧ decodeCommand .wc 0 = .ok (.wcDec 0)) ∧
    ((pending (.tordCommand 0x50000000000000000000000000000000) fresh).host =
        .tordCommand 0x50000000000000000000000000000000 :: [] ∧
      decodeCommand .tord 0x50000000000000000000000000000000 = .ok .toMerge) ∧
    ((pending (.ebCommand 0xB0000000000000000000000000000000 begin .fail) fresh).host =
        .ebCommand 0xB0000000000000000000000000000000 begin .fail :: [] ∧
      decodeCommand .eb 0xB0000000000000000000000000000000 = .ok .ebWrite) := by decide

/-- IllegalCommandChangesNothingElse and FaultPriority: one refused command pending at each port. -/
theorem witness_IllegalCommandChangesNothingElse :
    ((pending (.wcCommand 0x10000000000000050000000000000000) fresh).host =
        .wcCommand 0x10000000000000050000000000000000 :: [] ∧
      decodeCommand .wc 0x10000000000000050000000000000000 = .error .illFormedDatum) ∧
    ((pending (.tordCommand 0x60000000000000000000000000000000) fresh).host =
        .tordCommand 0x60000000000000000000000000000000 :: [] ∧
      decodeCommand .tord 0x60000000000000000000000000000000 = .error .reservedOp) ∧
    ((pending (.ebCommand 0xC0000000000000000000000100000002 begin .ok) fresh).host =
        .ebCommand 0xC0000000000000000000000100000002 begin .ok :: [] ∧
      decodeCommand .eb 0xC0000000000000000000000100000002 = .error .reservedBits) := by decide

/-- ToAddFollowsItsRule: channel 2 = NCHAN out of range; channel 1 in range with TO at its capacity 4, and one below it. -/
theorem witness_ToAddFollowsItsRule :
    fresh.tord.nchan.val ≤ (2 : BitVec 15).toNat ∧
    ((1 : BitVec 15).toNat < loaded.tord.nchan.val ∧ (withCaps (.upTo 4) .inf loaded).cfg.toCap = .upTo 4 ∧
      4 ≤ (withCaps (.upTo 4) .inf loaded).tord.held) ∧
    ((withCaps (.upTo 5) .inf loaded).cfg.toCap = .upTo 5 ∧ (withCaps (.upTo 5) .inf loaded).tord.held < 5) := by decide

/-- MergeContract and ToMergeFollowsItsRule: the buckets of S8, monotone, and a tie between two channels. -/
theorem witness_MergeContract :
    Memory.wf loaded ∧ monotoneBuckets loaded.tord.buckets ∧
    (let s := fresh.withTord { fresh.tord with buckets := [[hit 0 5], [hit 1 5]] }
     Memory.wf s ∧ monotoneBuckets s.tord.buckets ∧
      (mergedHits 2 s.tord.buckets)[0]? = some (hit 0 5) ∧ (mergedHits 2 s.tord.buckets)[1]? = some (hit 1 5) ∧
      (hit 0 5).time = (hit 1 5).time ∧ (hit 0 5).chan < (hit 1 5).chan) := by decide

/-- EbAddFollowsItsRule: EB Empty with room and full (E20); Open at 50 with DT 100 and times 49, 50, 150 and 151; room and full;
both answers of the sink. -/
theorem witness_EbAddFollowsItsRule :
    (fresh.eb.isOpen = false ∧ fresh.cfg.ebCap = .inf) ∧
    (let s := withCaps .inf (.upTo 1) (withPolicy .carry (fresh.withEb { fresh.eb with entries := [marker 1] }))
     s.eb.isOpen = false ∧ s.cfg.ebCap = .upTo 1 ∧ 1 ≤ s.eb.entries.length) ∧
    (opened.eb.isOpen = true ∧ (49 : BitVec 64).toNat < opened.eb.startTime.toNat) ∧
    (opened.eb.startTime.toNat ≤ (50 : BitVec 64).toNat ∧
      (150 : BitVec 64).toNat - opened.eb.startTime.toNat ≤ opened.eb.dt.toNat) ∧
    ((withCaps .inf (.upTo 2) opened).cfg.ebCap = .upTo 2 ∧ (withCaps .inf (.upTo 2) opened).eb.entries.length < 2) ∧
    ((withCaps .inf (.upTo 1) opened).cfg.ebCap = .upTo 1 ∧ 1 ≤ (withCaps .inf (.upTo 1) opened).eb.entries.length) ∧
    opened.eb.dt.toNat < (151 : BitVec 64).toNat - opened.eb.startTime.toNat ∧
    (opened.sink.attached = true ∧ opened.sink.answer = .ok) ∧
    ((failing opened).sink.attached = true ∧ (failing opened).sink.answer = .fail) := by decide

/-- EbFbFollowsItsRule: Empty under drop; Open, and Empty under carry, each with room and at a capacity. -/
theorem witness_EbFbFollowsItsRule :
    (fresh.eb.isOpen = false ∧ fresh.cfg.fbPolicy = .drop) ∧
    ((withCaps .inf (.upTo 2) opened).eb.isOpen = true ∧ (withCaps .inf (.upTo 2) opened).eb.entries.length < 2) ∧
    ((withCaps .inf (.upTo 1) opened).eb.isOpen = true ∧ 1 ≤ (withCaps .inf (.upTo 1) opened).eb.entries.length) ∧
    ((withPolicy .carry fresh).cfg.fbPolicy = .carry ∧ (withPolicy .carry fresh).cfg.ebCap = .inf) := by decide

/-- EbFlushFollowsItsRule: Empty, and Open with a sink of either answer. -/
theorem witness_EbFlushFollowsItsRule :
    fresh.eb.isOpen = false ∧
    (opened.eb.isOpen = true ∧ opened.sink.attached = true ∧ opened.sink.answer = .ok) ∧
    ((failing opened).eb.isOpen = true ∧ (failing opened).sink.attached = true ∧ (failing opened).sink.answer = .fail) := by
  decide

/-- EbWriteFollowsItsRule: a sink of either answer. -/
theorem witness_EbWriteFollowsItsRule :
    (opened.sink.attached = true ∧ opened.sink.answer = .ok) ∧
    ((failing fresh).sink.attached = true ∧ (failing fresh).sink.answer = .fail) := by decide

/-- EbSetsidFollowsItsRule and EventRecordHas14BytesAnEntry: an Open event and a sink. -/
theorem witness_EbSetsidFollowsItsRule : opened.eb.isOpen = true ∧ opened.sink.attached = true := by decide

/-- TheBlockNeverStops: a state with a sink. -/
theorem witness_TheBlockNeverStops : fresh.sink.attached = true := by decide

/-- PayloadFieldBytes: the last byte of each width. -/
theorem witness_PayloadFieldBytes : 1 < 2 ∧ 3 < 4 ∧ 7 < 8 := by decide

/-- OneByteOrderGovernsBothSides: an Open event and a sink, a stream that starts with the bytes of W1 and goes on, under each
order, and a step that answers a next state. -/
theorem witness_OneByteOrderGovernsBothSides :
    (opened.eb.isOpen = true ∧ opened.sink.attached = true) ∧
    (let s := pending .nextWord (fresh.withInp { bytes := [0xe8, 0x03, 0, 0x40, 0x53, 0, 0x28, 0x2c, 7], offset := 0 })
     s.cfg.byteOrder = .little ∧ s.host = .nextWord :: [] ∧ s.inp.offset = 0 ∧
      s.inp.bytes = ((List.range 8).map fun j => (0x2C280053400003E8 : BitVec 64).extractLsb' (8 * j) 8) ++ [7] ∧
      after (step s) (fun t => t.inp.offset) = some 8) ∧
    (let s := withOrder .big
       (pending .nextWord (fresh.withInp { bytes := [0x2c, 0x28, 0, 0x53, 0x40, 0, 0x03, 0xe8], offset := 0 }))
     s.cfg.byteOrder = .big ∧ s.host = .nextWord :: [] ∧ s.inp.offset = 0 ∧
      s.inp.bytes = ((List.range 8).map fun j => (0x2C280053400003E8 : BitVec 64).extractLsb' (8 * j) 8).reverse ++ []) := by
  decide

/-- SinkCallsStopWithoutASink: an Open EB without a sink, and the first time outside its window. -/
theorem witness_SinkCallsStopWithoutASink :
    (detached opened).sink.attached = false ∧ (detached opened).eb.isOpen = true ∧
    (detached opened).eb.startTime.toNat ≤ (151 : BitVec 64).toNat ∧
    (detached opened).eb.dt.toNat < (151 : BitVec 64).toNat - (detached opened).eb.startTime.toNat := by decide

/-- WindowIsInclusive: the greatest t0 for DT 100, with the least finite capacity. -/
theorem witness_WindowIsInclusive :
    ∃ (s : State) (t0 : BitVec 64), s.eb.isOpen = false ∧ s.eb.entries = [] ∧ (∀ k, s.cfg.ebCap = .upTo k → 2 ≤ k) ∧
      s.sink.attached = true ∧ s.sink.answer = .ok ∧ t0.toNat + s.eb.dt.toNat + 1 < 2 ^ 64 :=
  ⟨withCaps .inf (.upTo 2) fresh, 0xFFFFFFFFFFFFFF9A, rfl, rfl, fun _ h => by cases h; decide, rfl, rfl, by decide⟩

/-- FrameBoundaryDoesNotTrigger: both states. -/
theorem witness_FrameBoundaryDoesNotTrigger : fresh.eb.isOpen = false ∧ opened.eb.isOpen = true := by decide

/-- A hit, a marker and a flush under a sink that answers ok. -/
def shortRun : List (Answer × Instr) :=
  [(.ok, .ebAdd .leading 1 50 0), (.ok, .ebFb 7), (.ok, .ebFlush)]

/-- EveryEntryLeavesOnce: a run that sends a record with a hit and a marker, and its last clause for the carry policy. -/
theorem witness_EveryEntryLeavesOnce :
    (∀ p ∈ shortRun, p.1 = .ok ∧ p.2.accumulates = true) ∧
    after (runAll shortRun (withPolicy .carry fresh)) (fun t => (t.eb.fault, t.sink.trace.length)) = some (0, 1) ∧
    (withPolicy .carry fresh).cfg.fbPolicy = .carry := by decide

/-- EventRecordsFollowTime: a run that flushes by the window and by EB.FLUSH, with equal times in it. -/
theorem witness_EventRecordsFollowTime :
    let is : List (Answer × Instr) :=
      [(.ok, .ebAdd .leading 1 50 0), (.ok, .ebAdd .leading 2 50 0), (.fail, .ebAdd .leading 1 151 0),
       (.ok, .ebAdd .leading 1 151 0), (.ok, .ebFlush)]
    (∀ p ∈ is, p.2.accumulates = true) ∧ (addTimes is).Pairwise (· ≤ ·) ∧ fresh.eb.isOpen = false ∧
    (∀ e ∈ fresh.eb.entries, e.isMarker = true) ∧
    after (runAll is fresh) (fun t => t.sink.trace.length) = some 2 := by decide

/-- EventRecordsFollowTime, its second clause: an EB.ADD that flushes and opens. -/
theorem witness_EventRecordsFollowTime_flush :
    after (exec (.ebAdd .leading 2 151 0) opened) (fun t => (t.sink.trace.length, t.eb.isOpen)) = some (1, true) := by decide

/-- MergedHitsRaiseNoOrder: the buckets of S8, merged and fed. -/
theorem witness_MergedHitsRaiseNoOrder :
    Memory.wf loaded ∧ monotoneBuckets loaded.tord.buckets ∧ loaded.eb.isOpen = false ∧
    after (exec .toMerge loaded) (fun t => ebFeed t.tord.hits) =
      some [.ebAdd .leading 0 10 0, .ebAdd .leading 1 20 0, .ebAdd .leading 0 30 0, .ebAdd .leading 1 40 0] ∧
    after (runAll [(.ok, .ebAdd .leading 0 10 0), (.ok, .ebAdd .leading 1 20 0), (.ok, .ebAdd .leading 0 30 0),
      (.ok, .ebAdd .leading 1 40 0)] loaded) (fun u => u.eb.fault) = some 0 := by decide

/-- SentinelTagword: an Empty EB with the least capacity. -/
theorem witness_SentinelTagword :
    ∃ s : State, s.eb.isOpen = false ∧ s.eb.entries = [] ∧ ∀ k, s.cfg.ebCap = .upTo k → 0 < k :=
  ⟨withCaps .inf (.upTo 1) fresh, rfl, rfl, fun _ h => by cases h; decide⟩

/-- EdgeToHitWidens: the greatest base that fits with time 1, and the next one. -/
theorem witness_EdgeToHitWidens :
    (0xFFFFFFFFFFFFFFFE : BitVec 64).toNat + (1 : BitVec 29).toNat < 2 ^ 64 ∧
    2 ^ 64 ≤ (0xFFFFFFFFFFFFFFFF : BitVec 64).toNat + (1 : BitVec 29).toNat := by decide

/-- EveryStepKeepsTheInvariants: a state with an Open event and hits in TO, and a step from it. -/
theorem witness_EveryStepKeepsTheInvariants :
    ∃ s t : State, s.Inv ∧ s.eb.isOpen = true ∧ s.tord.held = 4 ∧ step s = .next t := by
  refine ⟨pending (.tordCommand 0x50000000000000000000000000000000) (loaded.withEb opened.eb), _, ?_, rfl, rfl, rfl⟩
  exact {
    params := by decide
    spaces := by decide
    toCap := trivial
    ebCap := trivial
    openEvent := fun _ =>
      { opener := ⟨[], entry 0 50, [], rfl, rfl, by simp, fun _ => rfl⟩
        window := by decide }
    emptyDrop := fun h => by cases h
    emptyCarry := fun h => by cases h
    toFault := by decide
    ebFault := by decide }

/-- UnitResets: a reset of each unit pending, with the straps at their extremes. -/
theorem witness_UnitResets :
    (pending (.resetTord 32768) loaded).host = .resetTord 32768 :: [] ∧
    (pending (.resetEb 0xFFFFFFFFFFFFFFFF 0xFFFFFFFF false) opened).host =
      .resetEb 0xFFFFFFFFFFFFFFFF 0xFFFFFFFF false :: [] := by decide

/-- NothingPendingNothingHappens: the state after reset is one. -/
theorem witness_NothingPendingNothingHappens : State.reset.host = [] := rfl

/-- AtMostOneRecordAStep and StrapsAreReadOnly: a step that sends a record. -/
theorem witness_AtMostOneRecordAStep :
    after (step (pending (.ebCommand 0xA0000000000000000000000000000000 begin .ok) opened))
      (fun t => (t.sink.trace.length, t.eb.dt, t.tord.nchan.val)) = some (1, 100, 2) := by decide

/-- FaultBitsAreSticky: a step that raises a fault with a bit already set. -/
theorem witness_FaultBitsAreSticky :
    after (step (pending (.ebCommand 0x80000000000000000000000000000031 begin .ok)
      (opened.withEb { opened.eb with fault := 0b00100 }))) (fun t => t.eb.fault) = some 0b00110 := by decide

/-- StatusAndStickyBitAgree and UnitsTouchTheirOwnStateOnly: an instruction of each unit with a next state. -/
theorem witness_StatusAndStickyBitAgree :
    ((Instr.wcDec 0).unit = .wc ∧ after (exec (.wcDec 0) fresh) (fun t => t.wc.status) = some 0) ∧
    ((Instr.toAdd .leading 2 5 0).unit = .tord ∧
      after (exec (.toAdd .leading 2 5 0) fresh) (fun t => t.tord.status) = some 1) ∧
    ((Instr.ebAdd .leading 0 49 0).unit = .eb ∧
      after (exec (.ebAdd .leading 0 49 0) opened) (fun t => t.eb.status) = some 2) := by decide

/-- FaultPriority: E21, a time before the start with the buffer full, then one inside, then one outside. -/
theorem witness_FaultPriority :
    let s := withCaps .inf (.upTo 1) opened
    s.eb.isOpen = true ∧ s.sink.attached = true ∧ (s.cfg.ebCap = .upTo 1 ∧ 1 ≤ s.eb.entries.length) ∧
    (49 : BitVec 64) < s.eb.startTime ∧
    (s.eb.startTime ≤ (50 : BitVec 64) ∧ (150 : BitVec 64) - s.eb.startTime ≤ s.eb.dt) ∧
    (s.eb.startTime ≤ (151 : BitVec 64) ∧ s.eb.dt < (151 : BitVec 64) - s.eb.startTime) := by decide

/-- OperationsOfTwoUnitsCommute: an instruction of TO and one of EB, both with a next state. -/
theorem witness_OperationsOfTwoUnitsCommute :
    Instr.toMerge.unit ≠ Instr.ebFlush.unit ∧
    after (exec .toMerge (loaded.withEb opened.eb)) (fun t => t.tord.hits.length) = some 4 ∧
    after (exec .ebFlush (loaded.withEb opened.eb)) (fun t => t.sink.trace.length) = some 1 := by decide

end Sys2Proof.Tests
end

section
/-! PROOFS. The state an operation of WC finds and leaves (10_state.md R23), and the state after reset (R36). -/

namespace Sys2Proof.Machine

/-! ## WC -/

/-- The datum of `WC.DEC` is a function of the word and the tags alone; no other component is written (40_wordcodec.md R90). -/
theorem exec_wcDec_eq_withWc (w : BitVec 64) (s : State) :
    exec (.wcDec w) s = .next (s.withWc { s.wc with status := 0, datum := datumOfWord s.cfg.tags w }) := rfl

/-- The word of `WC.ENC` is a function of the datum and the parameters alone; no other component is written
(40_wordcodec.md R95). -/
theorem exec_wcEnc_eq_withWc (d : Datum) (s : State) :
    exec (.wcEnc d) s = .next (s.withWc { s.wc with status := 0, word := wordOfDatum s.cfg.tags Config.fsizeHigh d }) := rfl

/-- Settles O11: each result is a function of the operand and the parameters, and the rest of the state is the frame of
`State.withWc`. -/
theorem wcKeepsNothing : Obligations.WcKeepsNothing := by
  unfold Obligations.WcKeepsNothing
  intro w d s s' hcfg
  have hdatum : datumOfWord s.cfg.tags w = datumOfWord s'.cfg.tags w := by rw [hcfg]
  have hword : wordOfDatum s.cfg.tags Config.fsizeHigh d = wordOfDatum s'.cfg.tags Config.fsizeHigh d := by rw [hcfg]
  constructor
  · exact ⟨_, _, exec_wcDec_eq_withWc w s, exec_wcDec_eq_withWc w s', hdatum, rfl,
      s.withWc_tord _, s.withWc_eb _, s.withWc_sink _⟩
  · exact ⟨_, _, exec_wcEnc_eq_withWc d s, exec_wcEnc_eq_withWc d s', hword, rfl,
      s.withWc_tord _, s.withWc_eb _, s.withWc_sink _⟩

/-! ## Reset -/

/-- What R36 states of TO, for every strap. -/
theorem TordState.reset_values (n : Fin 32769) :
    (TordState.reset n).nchan = n ∧ (TordState.reset n).buckets = List.replicate n.val [] ∧
    (TordState.reset n).cur = List.replicate n.val 0 ∧ (TordState.reset n).fault = 0 :=
  ⟨rfl, rfl, rfl, rfl⟩

/-- What R36 states of EB, for every pair of straps. -/
theorem EbState.reset_values (dt : BitVec 64) (sid : BitVec 32) :
    (EbState.reset dt sid).isOpen = false ∧ (EbState.reset dt sid).entries = [] ∧
    (EbState.reset dt sid).sid = sid ∧ (EbState.reset dt sid).dt = dt ∧ (EbState.reset dt sid).fault = 0 :=
  ⟨rfl, rfl, rfl, rfl, rfl⟩

/-- Settles O46: the values of the two units at the instance's own straps, and no record handed to the sink yet. -/
theorem resetValues : Obligations.ResetValues := by
  unfold Obligations.ResetValues
  obtain ⟨hnchan, hbuckets, hcur, htordFault⟩ := TordState.reset_values Config.nchan
  obtain ⟨hopen, hentries, hsid, hdt, hebFault⟩ := EbState.reset_values Config.dt Config.sidInit
  exact ⟨hnchan, hbuckets, hcur, htordFault, hopen, hentries, hsid, hdt, hebFault, rfl⟩

end Sys2Proof.Machine
end

section
/-! PROOFS. The byte image of a payload in either byte order (20_memory.md R47). -/

namespace Sys2Proof.Machine

/-! ## The bytes of a value -/

@[simp] theorem valueBytes_length (order : ByteOrder) {w : Nat} (n : Nat) (v : BitVec w) :
    (valueBytes order n v).length = n := by
  cases order <;> simp [valueBytes]

/-- Under `little` byte `j` holds the bits from `8j` up. -/
theorem valueBytes_little_getElem? {w n j : Nat} (v : BitVec w) (hj : j < n) :
    (valueBytes .little n v)[j]? = some (v.extractLsb' (8 * j) 8) := by
  simp [valueBytes, slice, hj]

/-- `big` is `little` read from its far end. -/
theorem valueBytes_big {w : Nat} (n : Nat) (v : BitVec w) :
    valueBytes .big n v = (valueBytes .little n v).reverse := rfl

/-- Under `big` byte `j` of `n` is byte `n - 1 - j` under `little`. -/
theorem valueBytes_big_getElem? {w n j : Nat} (v : BitVec w) (hj : j < n) :
    (valueBytes .big n v)[j]? = some (v.extractLsb' (8 * (n - 1) - 8 * j) 8) := by
  have hlength : j < (valueBytes .little n v).length := by simpa using hj
  have hmirror : n - 1 - j < n := by omega
  rw [valueBytes_big, List.getElem?_reverse hlength, valueBytes_length,
    valueBytes_little_getElem? v hmirror, Nat.mul_sub]

/-! ## The bytes of a field and of a payload -/

theorem Field.bytes_f16 (order : ByteOrder) (v : BitVec 16) : Field.bytes order (.f16 v) = valueBytes order 2 v := rfl

theorem Field.bytes_f32 (order : ByteOrder) (v : BitVec 32) : Field.bytes order (.f32 v) = valueBytes order 4 v := rfl

theorem Field.bytes_f64 (order : ByteOrder) (v : BitVec 64) : Field.bytes order (.f64 v) = valueBytes order 8 v := rfl

/-- The type and the header of a record are no part of its payload's bytes, and a field's bytes stand directly before those
of the fields after it. -/
theorem Record.payloadBytes_cons (order : ByteOrder) (type : BitVec 32) (header : Option RecordHeader) (f : Field)
    (fs : List Field) :
    Record.payloadBytes order ⟨type, header, f :: fs⟩ =
      Field.bytes order f ++ Record.payloadBytes order ⟨type, header, fs⟩ :=
  List.flatMap_cons

/-- Settles O41: a field is the bytes of its value at the field's width, in either order. -/
theorem payloadFieldBytes : Obligations.PayloadFieldBytes := by
  unfold Obligations.PayloadFieldBytes
  simp only [Field.bytes_f16, Field.bytes_f32, Field.bytes_f64]
  refine ⟨?f16, ?f32, ?f64, ?lengths, Record.payloadBytes_cons⟩
  case f16 | f32 | f64 => exact fun v j hj => ⟨valueBytes_little_getElem? v hj, valueBytes_big_getElem? v hj⟩
  case lengths =>
    exact fun order v v' v'' =>
      ⟨valueBytes_length order 2 v, valueBytes_length order 4 v', valueBytes_length order 8 v''⟩

end Sys2Proof.Machine
end

section
/-! PROOFS. The datum register (30_encoding.md R75): its layout, and its reading as the inverse of its writing. -/

namespace Sys2Proof

/-! ## A register, field by field -/

/-- A field is its upper part followed by its lower part. -/
theorem slice_eq_append {n : Nat} (w : BitVec n) (lo m k : Nat) :
    slice w lo (m + k) = slice w (lo + k) m ++ slice w lo k := by
  apply BitVec.eq_of_getLsbD_eq
  intro i hi
  simp only [BitVec.getLsbD_append, getLsbD_slice]
  by_cases hk : i < k
  · simp [hk, hi]
  · simp [hk, show i - k < m by omega, hi, show lo + k + (i - k) = lo + i by omega]

theorem eq_frameStart_layout {r : BitVec 67} {k : BitVec 3} {z : BitVec 24} {o : BitVec 16} {f : BitVec 24}
    (hk : slice r 64 3 = k) (hz : slice r 40 24 = z) (ho : slice r 24 16 = o) (hf : slice r 0 24 = f) :
    r = k ++ z ++ o ++ f := by
  rw [← hk, ← hz, ← slice_eq_append r 40 3 24, ← ho, ← slice_eq_append r 24 27 16, ← hf, ← slice_eq_append r 0 43 24]
  exact (slice_whole r).symm

theorem eq_frameSize_layout {r : BitVec 67} {k : BitVec 3} {z : BitVec 44} {n : BitVec 20}
    (hk : slice r 64 3 = k) (hz : slice r 20 44 = z) (hn : slice r 0 20 = n) : r = k ++ z ++ n := by
  rw [← hk, ← hz, ← slice_eq_append r 20 3 44, ← hn, ← slice_eq_append r 0 47 20]
  exact (slice_whole r).symm

theorem eq_edge_layout {r : BitVec 67} {k : BitVec 3} {z : BitVec 6} {c : BitVec 7} {x : BitVec 22} {tm : BitVec 29}
    (hk : slice r 64 3 = k) (hz : slice r 58 6 = z) (hc : slice r 51 7 = c) (hx : slice r 29 22 = x)
    (htm : slice r 0 29 = tm) : r = k ++ z ++ c ++ x ++ tm := by
  rw [← hk, ← hz, ← slice_eq_append r 58 3 6, ← hc, ← slice_eq_append r 51 9 7, ← hx, ← slice_eq_append r 29 16 22,
    ← htm, ← slice_eq_append r 0 38 29]
  exact (slice_whole r).symm

theorem eq_unrecognized_layout {r : BitVec 67} {k : BitVec 3} {w : BitVec 64}
    (hk : slice r 64 3 = k) (hw : slice r 0 64 = w) : r = k ++ w := by
  rw [← hk, ← hw, ← slice_eq_append r 0 3 64]
  exact (slice_whole r).symm

/-! ## Writing a register -/

theorem slice_register_kind (d : Datum) : slice d.register 64 3 = d.kind :=
  (register_fields d).2

/-- The fields of a register's body stand in the register where they stand in the body. -/
theorem slice_register_body (d : Datum) (lo len : Nat) (h : lo + len ≤ 64) :
    slice d.register lo len = slice d.body lo len := by
  rw [← (register_fields d).1, slice_slice _ 0 64 lo len h, Nat.zero_add]

theorem slices_register_frameStart (f : BitVec 24) (o : BitVec 16) :
    slice (Datum.frameStart f o).register 40 24 = 0 ∧ slice (Datum.frameStart f o).register 24 16 = o ∧
    slice (Datum.frameStart f o).register 0 24 = f := by
  simpa only [slice_register_body, Nat.reduceAdd, Nat.reduceLeDiff] using body_frameStart f o

theorem slices_register_frameSize (n : BitVec 20) :
    slice (Datum.frameSize n).register 20 44 = 0 ∧ slice (Datum.frameSize n).register 0 20 = n := by
  simpa only [slice_register_body, Nat.reduceAdd, Nat.reduceLeDiff] using body_frameSize n

theorem slices_register_edge (dir : Dir) (c : BitVec 7) (x : BitVec 22) (tm : BitVec 29) :
    slice (Datum.edge dir c x tm).register 58 6 = 0 ∧ slice (Datum.edge dir c x tm).register 51 7 = c ∧
    slice (Datum.edge dir c x tm).register 29 22 = x ∧ slice (Datum.edge dir c x tm).register 0 29 = tm := by
  simpa only [slice_register_body, Nat.reduceAdd, Nat.reduceLeDiff] using body_edge dir c x tm

theorem slice_register_unrecognized (w : BitVec 64) : slice (Datum.unrecognized w).register 0 64 = w :=
  (register_fields (.unrecognized w)).1

theorem register_frameStart (f : BitVec 24) (o : BitVec 16) :
    (Datum.frameStart f o).register = 0#3 ++ 0#24 ++ o ++ f := by
  obtain ⟨hzero, ho, hf⟩ := slices_register_frameStart f o
  exact eq_frameStart_layout (slice_register_kind _) hzero ho hf

theorem register_frameSize (n : BitVec 20) : (Datum.frameSize n).register = 1#3 ++ 0#44 ++ n := by
  obtain ⟨hzero, hn⟩ := slices_register_frameSize n
  exact eq_frameSize_layout (slice_register_kind _) hzero hn

theorem register_edge (dir : Dir) (c : BitVec 7) (x : BitVec 22) (tm : BitVec 29) :
    (Datum.edge dir c x tm).register = (Datum.edge dir c x tm).kind ++ 0#6 ++ c ++ x ++ tm := by
  obtain ⟨hzero, hc, hx, htm⟩ := slices_register_edge dir c x tm
  exact eq_edge_layout (slice_register_kind _) hzero hc hx htm

theorem register_unrecognized (w : BitVec 64) : (Datum.unrecognized w).register = 4#3 ++ w :=
  eq_unrecognized_layout (slice_register_kind _) (slice_register_unrecognized w)

/-! ## Reading a register -/

/-- All that a well-formed register says: its `kind`, the bits that must be 0, and the datum its fields hold. -/
theorem datumOfRegister_eq_some_iff (r : BitVec 67) (d : Datum) :
    datumOfRegister r = some d ↔
      (slice r 64 3 = 0 ∧ slice r 40 24 = 0 ∧ d = .frameStart (slice r 0 24) (slice r 24 16)) ∨
      (slice r 64 3 = 1 ∧ slice r 20 44 = 0 ∧ d = .frameSize (slice r 0 20)) ∨
      (slice r 64 3 = 2 ∧ slice r 58 6 = 0 ∧ d = .edge .leading (slice r 51 7) (slice r 29 22) (slice r 0 29)) ∨
      (slice r 64 3 = 3 ∧ slice r 58 6 = 0 ∧ d = .edge .trailing (slice r 51 7) (slice r 29 22) (slice r 0 29)) ∨
      (slice r 64 3 = 4 ∧ d = .unrecognized (slice r 0 64)) := by
  unfold datumOfRegister decodeFrameStart decodeFrameSize decodeEdge
  simp only [slice_slice, Nat.reduceAdd, Nat.reduceLeDiff, ← BitVec.toNat_inj (x := slice r 64 3)]
  split
  case h_1 h | h_2 h | h_3 h | h_4 h | h_5 h => simp [h, eq_comm]
  case h_6 h0 h1 h2 h3 h4 =>
    refine ⟨nofun, ?_⟩
    rintro (⟨h, -⟩ | ⟨h, -⟩ | ⟨h, -⟩ | ⟨h, -⟩ | ⟨h, -⟩)
    exacts [(h0 h).elim, (h1 h).elim, (h2 h).elim, (h3 h).elim, (h4 h).elim]

theorem datumOfRegister_register (d : Datum) : datumOfRegister d.register = some d := by
  rw [datumOfRegister_eq_some_iff, slice_register_kind]
  cases d with
  | frameStart f o =>
    obtain ⟨hzero, ho, hf⟩ := slices_register_frameStart f o
    exact .inl ⟨rfl, hzero, by rw [ho, hf]⟩
  | frameSize n =>
    obtain ⟨hzero, hn⟩ := slices_register_frameSize n
    exact .inr (.inl ⟨rfl, hzero, by rw [hn]⟩)
  | edge dir c x tm =>
    obtain ⟨hzero, hc, hx, htm⟩ := slices_register_edge dir c x tm
    rw [hc, hx, htm]
    cases dir with
    | leading => exact .inr (.inr (.inl ⟨rfl, hzero, rfl⟩))
    | trailing => exact .inr (.inr (.inr (.inl ⟨rfl, hzero, rfl⟩)))
  | unrecognized w => exact .inr (.inr (.inr (.inr ⟨rfl, by rw [slice_register_unrecognized]⟩)))

/-- A well-formed register has no bit that its datum does not fix. -/
theorem register_of_datumOfRegister {r : BitVec 67} {d : Datum} (h : datumOfRegister r = some d) : d.register = r := by
  obtain ⟨hkind, hzero, rfl⟩ | ⟨hkind, hzero, rfl⟩ | ⟨hkind, hzero, rfl⟩ | ⟨hkind, hzero, rfl⟩ | ⟨hkind, rfl⟩ :=
    (datumOfRegister_eq_some_iff r d).1 h
  case inl => exact (register_frameStart _ _).trans (eq_frameStart_layout hkind hzero rfl rfl).symm
  case inr.inl => exact (register_frameSize _).trans (eq_frameSize_layout hkind hzero rfl).symm
  case inr.inr.inl | inr.inr.inr.inl =>
    exact (register_edge _ _ _ _).trans (eq_edge_layout hkind hzero rfl rfl rfl).symm
  case inr.inr.inr.inr => exact (register_unrecognized _).trans (eq_unrecognized_layout hkind rfl).symm

theorem datumOfRegister_wellFormed_iff (r : BitVec 67) :
    (∃ d, datumOfRegister r = some d) ↔
      (slice r 64 3 = 0 ∧ slice r 40 24 = 0) ∨ (slice r 64 3 = 1 ∧ slice r 20 44 = 0) ∨
      (slice r 64 3 = 2 ∧ slice r 58 6 = 0) ∨ (slice r 64 3 = 3 ∧ slice r 58 6 = 0) ∨ slice r 64 3 = 4 := by
  simp only [datumOfRegister_eq_some_iff, exists_or, exists_and_left, exists_eq, and_true]

/-- Settles O16: the layout of each kind, the two round trips, and the bits that decide whether a register is well formed. -/
theorem datumRegisterIsFaithful : Obligations.DatumRegisterIsFaithful := by
  unfold Obligations.DatumRegisterIsFaithful
  refine ⟨fun f o n c x tm w => ?layout, datumOfRegister_register, fun r d => register_of_datumOfRegister,
    datumOfRegister_wellFormed_iff⟩
  case layout =>
    exact ⟨register_frameStart f o, register_frameSize n, register_edge .leading c x tm, register_edge .trailing c x tm,
      register_unrecognized w⟩

end Sys2Proof
end

section
/-! PROOFS. The rows of the command descriptor (30_encoding.md R78). -/

namespace Sys2Proof

/-- On the row of `WC.ENC` a well-formed datum register gives its datum. -/
theorem operandsOf_wcEnc {d : BitVec 128} {x : Datum} (h : datumOfRegister (slice d 0 67) = some x) :
    operandsOf .wcEnc d = .ok (.wcEnc x) := by
  simp only [operandsOf, h]

/-- The row of `WC.ENC` has operands only where the datum register is well formed. -/
theorem isSome_of_operandsOf_wcEnc {d : BitVec 128} {i : Instr} (h : operandsOf .wcEnc d = .ok i) :
    (datumOfRegister (slice d 0 67)).isSome = true := by
  cases hregister : datumOfRegister (slice d 0 67) with
  | none => simp [operandsOf, hregister] at h
  | some x => rfl

/-- An accepted descriptor at a port matches the row of an operation of the port's unit, and has that row's operands. -/
theorem exists_row_of_decodeCommand {u : UnitId} {d : BitVec 128} {i : Instr} (h : decodeCommand u d = .ok i) :
    ∃ op : Op, op.unit = u ∧ d &&& op.mask = op.pattern ∧ operandsOf op d = .ok i := by
  obtain ⟨op, -, hunit, hrow, hoperands⟩ := (decodeCommand_ok_iff u d i).1 h
  exact ⟨op, hunit, hrow, hoperands⟩

theorem wc_rows {d : BitVec 128} {i : Instr} (h : decodeCommand .wc d = .ok i) :
    d &&& Op.wcDec.mask = Op.wcDec.pattern ∨
    (d &&& Op.wcEnc.mask = Op.wcEnc.pattern ∧ (datumOfRegister (slice d 0 67)).isSome = true) := by
  obtain ⟨op, hunit, hrow, hoperands⟩ := exists_row_of_decodeCommand h
  cases op with
  | wcDec => exact .inl hrow
  | wcEnc => exact .inr ⟨hrow, isSome_of_operandsOf_wcEnc hoperands⟩
  | _ => cases hunit

theorem tord_rows {d : BitVec 128} {i : Instr} (h : decodeCommand .tord d = .ok i) :
    d &&& Op.toAdd.mask = Op.toAdd.pattern ∨ d &&& Op.toMerge.mask = Op.toMerge.pattern := by
  obtain ⟨op, hunit, hrow, -⟩ := exists_row_of_decodeCommand h
  cases op with
  | toAdd => exact .inl hrow
  | toMerge => exact .inr hrow
  | _ => cases hunit

theorem eb_rows {d : BitVec 128} {i : Instr} (h : decodeCommand .eb d = .ok i) :
    d &&& Op.ebAdd.mask = Op.ebAdd.pattern ∨ d &&& Op.ebFb.mask = Op.ebFb.pattern ∨
    d &&& Op.ebFlush.mask = Op.ebFlush.pattern ∨ d &&& Op.ebWrite.mask = Op.ebWrite.pattern ∨
    d &&& Op.ebSetsid.mask = Op.ebSetsid.pattern := by
  obtain ⟨op, hunit, hrow, -⟩ := exists_row_of_decodeCommand h
  cases op with
  | ebAdd => exact .inl hrow
  | ebFb => exact .inr (.inl hrow)
  | ebFlush => exact .inr (.inr (.inl hrow))
  | ebWrite => exact .inr (.inr (.inr (.inl hrow)))
  | ebSetsid => exact .inr (.inr (.inr (.inr hrow)))
  | _ => cases hunit

/-- Settles O17: a matching descriptor decodes to its row's operands, and an accepted one matches a row of the port's unit. -/
theorem descriptorsMatchTheRows : Obligations.DescriptorsMatchTheRows := by
  unfold Obligations.DescriptorsMatchTheRows
  intro d hit isDec isEnc isToAdd isMerge isEbAdd isFb isFlush isWrite isSetsid register
  refine ⟨decodeCommand_of_match .wcDec d, ?enc, decodeCommand_of_match .toAdd d, decodeCommand_of_match .toMerge d,
    decodeCommand_of_match .ebAdd d, decodeCommand_of_match .ebFb d, decodeCommand_of_match .ebFlush d,
    decodeCommand_of_match .ebWrite d, decodeCommand_of_match .ebSetsid d,
    fun i => wc_rows, fun i => tord_rows, fun i => eb_rows⟩
  case enc => exact fun hrow x hx => (decodeCommand_of_match .wcEnc d hrow).trans (operandsOf_wcEnc hx)

end Sys2Proof
end

section
/-! PROOFS. Masked words, and words put together from their fields (30_encoding.md R60, R66). -/

namespace Sys2Proof

/-! ## Masks -/

theorem slice_and_kept {n lo len : Nat} (w : BitVec n) {m : BitVec n} (hm : slice m lo len = BitVec.allOnes len) :
    slice (w &&& m) lo len = slice w lo len := by
  rw [slice_and, hm, BitVec.and_allOnes]

theorem slice_and_cleared {n lo len : Nat} (w : BitVec n) {m : BitVec n} (hm : slice m lo len = 0) :
    slice (w &&& m) lo len = 0 := by
  rw [slice_and, hm]
  exact BitVec.and_zero

/-- Words that agree under a mask agree in every field that the mask keeps. -/
theorem slice_eq_of_and_eq {n lo len : Nat} {w w' m : BitVec n} (h : w' &&& m = w &&& m)
    (hm : slice m lo len = BitVec.allOnes len) : slice w' lo len = slice w lo len := by
  rw [← slice_and_kept w' hm, h, slice_and_kept w hm]

/-- A mask of ones above zeros keeps the upper part. -/
theorem append_and_upperMask {m n : Nat} (a : BitVec m) (b : BitVec n) :
    (a ++ b) &&& (BitVec.allOnes m ++ 0#n) = a ++ 0#n := by
  rw [BitVec.and_append, BitVec.and_allOnes, BitVec.and_zero]

/-! ## A word from its parts -/

theorem place_zero (n : Nat) {k : Nat} (f : BitVec k) : place n f 0 = f.setWidth n :=
  BitVec.shiftLeft_zero _

/-- The upper part of an appended value. -/
theorem slice_append_top {m n : Nat} (a : BitVec m) (b : BitVec n) : slice (a ++ b) n m = a := by
  rw [slice_append_high a b n m le_rfl, Nat.sub_self, slice_whole]

theorem slice_append_bottom {m n : Nat} (a : BitVec m) (b : BitVec n) : slice (a ++ b) 0 n = b := by
  rw [slice_append_low a b 0 n (Nat.zero_add n).le, slice_whole]

/-- Values that agree in a field and in the field above it agree in both at once. -/
theorem slice_eq_of_adjacent {n lo m k : Nat} {x y : BitVec n} (hhigh : slice x (lo + k) m = slice y (lo + k) m)
    (hlow : slice x lo k = slice y lo k) : slice x lo (m + k) = slice y lo (m + k) := by
  rw [slice_eq_append, slice_eq_append, hhigh, hlow]

theorem word_eq_of_tag_payload {x y : BitVec 64} (htag : slice x 58 6 = slice y 58 6)
    (hpayload : slice x 0 58 = slice y 0 58) : x = y :=
  eq_of_slices x y 58 6 le_rfl hpayload htag

end Sys2Proof
end

section
/-! PROOFS. What the arms of decode and encode read and write, as registers and as words (40_wordcodec.md R90 to R98). -/

namespace Sys2Proof

/-! ## The tags -/

theorem Tags.recognises_eq_false_of_not_mem {t : Tags} {w : BitVec 64}
    (h : slice w 58 6 ∉ [t.frameStart, t.frameSize, t.leading, t.trailing]) : t.recognises w = false := by
  rw [← Bool.not_eq_true, t.recognises_iff w]
  simpa only [List.mem_cons, List.not_mem_nil, or_false] using h

/-! ## The register of a decoded word -/

theorem register_decodeFrameStart (w : BitVec 64) :
    (decodeFrameStart w).register = 0#3 ++ (w &&& 0x000000FFFFFFFFFF) := by
  refine (register_frameStart _ _).trans (eq_frameStart_layout (slice_append_top _ _) ?zero ?offset ?frame).symm
  all_goals rw [slice_append_low _ _ _ _ (by decide)]
  case zero => exact slice_and_cleared w (by decide)
  case offset | frame => exact slice_and_kept w (by decide)

theorem register_decodeFrameSize (w : BitVec 64) :
    (decodeFrameSize w).register = 1#3 ++ (w &&& 0x00000000000FFFFF) := by
  refine (register_frameSize _).trans (eq_frameSize_layout (slice_append_top _ _) ?zero ?size).symm
  all_goals rw [slice_append_low _ _ _ _ (by decide)]
  case zero => exact slice_and_cleared w (by decide)
  case size => exact slice_and_kept w (by decide)

theorem register_decodeEdge (d : Dir) (w : BitVec 64) :
    (decodeEdge d w).register = (decodeEdge d w).kind ++ (w &&& 0x03FFFFFFFFFFFFFF) := by
  refine (register_edge _ _ _ _).trans
    (eq_edge_layout (slice_append_top _ _) ?zero ?channel ?tot ?time).symm
  all_goals rw [slice_append_low _ _ _ _ (by decide)]
  case zero => exact slice_and_cleared w (by decide)
  case channel | tot | time => exact slice_and_kept w (by decide)

theorem kind_decodeEdge (d : Dir) (w : BitVec 64) :
    (decodeEdge d w).kind = if d = .leading then 2#3 else 3#3 := by
  cases d <;> rfl

/-! ## The variant of a decoded word -/

/-- The dispatch of decode as a dispatch on the variant: no bit below the tag is read. -/
theorem kind_datumOfWord (t : Tags) (w : BitVec 64) : (datumOfWord t w).kind =
    if slice w 58 6 = t.frameStart then 0 else if slice w 58 6 = t.frameSize then 1
    else if slice w 58 6 = t.leading then 2 else if slice w 58 6 = t.trailing then 3 else 4 := by
  simp only [datumOfWord, apply_ite Datum.kind]
  rfl

theorem kind_decodeEdge_inj {d d' : Dir} {w w' : BitVec 64} (h : (decodeEdge d w).kind = (decodeEdge d' w').kind) :
    d = d' := by
  cases d <;> cases d'
  case leading.leading | trailing.trailing => rfl
  case leading.trailing | trailing.leading => cases h

/-- A word decodes to an Edge of a direction exactly under that direction's tag. -/
theorem kind_datumOfWord_eq_edge_iff {t : Tags} (hd : t.distinct) (w : BitVec 64) (d : Dir) :
    (datumOfWord t w).kind = (decodeEdge d w).kind ↔ slice w 58 6 = t.edge d := by
  refine ⟨fun hkind => ?_, fun htag => by rw [datumOfWord_edge hd d htag]⟩
  obtain htag | htag | ⟨d', htag⟩ | hunknown := tag_cases t w
  · rw [datumOfWord_frameStart htag, kind_decodeEdge] at hkind
    split at hkind <;> cases hkind
  · rw [datumOfWord_frameSize hd htag, kind_decodeEdge] at hkind
    split at hkind <;> cases hkind
  · rw [datumOfWord_edge hd d' htag] at hkind
    rw [htag, kind_decodeEdge_inj hkind]
  · rw [datumOfWord_unknown hunknown, kind_decodeEdge] at hkind
    split at hkind <;> cases hkind

theorem datumOfWord_ne_unrecognized {t : Tags} {w : BitVec 64} (hd : t.distinct) (h : t.recognises w = true)
    (v : BitVec 64) : datumOfWord t w ≠ .unrecognized v := by
  obtain htag | htag | ⟨d, htag⟩ | hunknown := tag_cases t w
  · rw [datumOfWord_frameStart htag]; nofun
  · rw [datumOfWord_frameSize hd htag]; nofun
  · rw [datumOfWord_edge hd d htag]; nofun
  · rw [hunknown] at h; cases h

/-! ## Decode after encode -/

/-- R99: the tag that encode writes selects the arm that reads back what encode placed. -/
theorem datumOfWord_wordOfDatum {t : Tags} (hd : t.distinct) (hi : BitVec 20 → BitVec 38) (d : Datum)
    (hvalid : d.valid t = true) : datumOfWord t (wordOfDatum t hi d) = d := by
  cases d with
  | frameStart f o =>
    obtain ⟨htag, -, ho, hf⟩ := wordOfDatum_frameStart t hi f o
    rw [datumOfWord_frameStart htag, decodeFrameStart, ho, hf]
  | frameSize n =>
    obtain ⟨htag, -, hn⟩ := wordOfDatum_frameSize t hi n
    rw [datumOfWord_frameSize hd htag, decodeFrameSize, hn]
  | edge d c x tm =>
    obtain ⟨htag, hc, hx, htm⟩ := wordOfDatum_edge t hi d c x tm
    rw [datumOfWord_edge hd d htag, decodeEdge, hc, hx, htm]
  | unrecognized w =>
    have hunknown : t.recognises w = false := by simpa [Datum.valid] using hvalid
    exact datumOfWord_unknown hunknown

/-- Only an Unrecognized that carries a recognised tag is not valid. -/
theorem Datum.eq_unrecognized_of_not_valid {t : Tags} {d : Datum} (h : d.valid t = false) :
    ∃ w, d = .unrecognized w ∧ t.recognises w = true := by
  cases d with
  | unrecognized w => exact ⟨w, rfl, by simpa [Datum.valid] using h⟩
  | _ => cases h

/-! ## Encode after decode -/

theorem wordOfDatum_decodeFrameStart_eq_iff {t : Tags} (hi : BitVec 20 → BitVec 38) {w : BitVec 64}
    (htag : slice w 58 6 = t.frameStart) : wordOfDatum t hi (decodeFrameStart w) = w ↔ slice w 40 18 = 0 := by
  obtain ⟨htag', hzero, ho, hf⟩ := wordOfDatum_frameStart t hi (slice w 0 24) (slice w 24 16)
  refine ⟨fun h => (congrArg (slice · 40 18) h).symm.trans hzero, fun h => ?_⟩
  have hfields : slice (wordOfDatum t hi (decodeFrameStart w)) 0 40 = slice w 0 40 :=
    slice_eq_of_adjacent (m := 16) (k := 24) ho hf
  exact word_eq_of_tag_payload (htag'.trans htag.symm)
    (slice_eq_of_adjacent (m := 18) (k := 40) (hzero.trans h.symm) hfields)

theorem wordOfDatum_decodeFrameSize_eq_iff {t : Tags} (hi : BitVec 20 → BitVec 38) {w : BitVec 64}
    (htag : slice w 58 6 = t.frameSize) :
    wordOfDatum t hi (decodeFrameSize w) = w ↔ slice w 0 58 = fsizePayload hi (slice w 0 20) := by
  obtain ⟨htag', hpayload, -⟩ := wordOfDatum_frameSize t hi (slice w 0 20)
  exact ⟨fun h => (congrArg (slice · 0 58) h).symm.trans hpayload,
    fun h => word_eq_of_tag_payload (htag'.trans htag.symm) (hpayload.trans h.symm)⟩

/-- An Edge word has no bit that its tag and its three fields do not fix. -/
theorem wordOfDatum_decodeEdge {t : Tags} (hi : BitVec 20 → BitVec 38) {w : BitVec 64} {d : Dir}
    (htag : slice w 58 6 = t.edge d) : wordOfDatum t hi (decodeEdge d w) = w := by
  obtain ⟨htag', hc, hx, htm⟩ := wordOfDatum_edge t hi d (slice w 51 7) (slice w 29 22) (slice w 0 29)
  have hlow : slice (wordOfDatum t hi (decodeEdge d w)) 0 51 = slice w 0 51 :=
    slice_eq_of_adjacent (m := 22) (k := 29) hx htm
  exact word_eq_of_tag_payload (htag'.trans htag.symm) (slice_eq_of_adjacent (m := 7) (k := 51) hc hlow)

/-- R101, arm by arm. -/
theorem wordOfDatum_datumOfWord_eq_iff {t : Tags} (hd : t.distinct) (hi : BitVec 20 → BitVec 38) (w : BitVec 64) :
    wordOfDatum t hi (datumOfWord t w) = w ↔
      t.recognises w = false ∨ slice w 58 6 = t.leading ∨ slice w 58 6 = t.trailing ∨
      (slice w 58 6 = t.frameStart ∧ slice w 40 18 = 0) ∨
      (slice w 58 6 = t.frameSize ∧ slice w 0 58 = fsizePayload hi (slice w 0 20)) := by
  obtain ⟨⟨hstartSize, hstartLeading, hstartTrailing⟩, ⟨hsizeLeading, hsizeTrailing⟩, -⟩ := t.distinct_iff.1 hd
  obtain htag | htag | ⟨d, htag⟩ | hunknown := tag_cases t w
  · have hrec : t.recognises w = true := (t.recognises_iff w).2 (.inl htag)
    rw [datumOfWord_frameStart htag, wordOfDatum_decodeFrameStart_eq_iff hi htag]
    simp [hrec, htag, hstartLeading, hstartTrailing, hstartSize]
  · have hrec : t.recognises w = true := (t.recognises_iff w).2 (.inr (.inl htag))
    rw [datumOfWord_frameSize hd htag, wordOfDatum_decodeFrameSize_eq_iff hi htag]
    simp [hrec, htag, hsizeLeading, hsizeTrailing, hstartSize.symm]
  · rw [datumOfWord_edge hd d htag, wordOfDatum_decodeEdge hi htag]
    cases d with
    | leading => exact iff_of_true rfl (.inr (.inl htag))
    | trailing => exact iff_of_true rfl (.inr (.inr (.inl htag)))
  · rw [datumOfWord_unknown hunknown]
    exact iff_of_true rfl (.inl hunknown)

/-! ## The words of the two directions -/

theorem wordOfDatum_edge_eq_tag_or_body (t : Tags) (hi : BitVec 20 → BitVec 38) (d : Dir) (c : BitVec 7)
    (x : BitVec 22) (tm : BitVec 29) :
    wordOfDatum t hi (.edge d c x tm) = place 64 (t.edge d) 58 ||| (Datum.edge d c x tm).body := by
  simp only [wordOfDatum, Datum.body, BitVec.or_assoc]

/-- Without its tag an Edge word is the body of its datum, which the direction is no part of. -/
theorem wordOfDatum_edge_and_payloadMask (t : Tags) (hi : BitVec 20 → BitVec 38) (d : Dir) (c : BitVec 7)
    (x : BitVec 22) (tm : BitVec 29) :
    wordOfDatum t hi (.edge d c x tm) &&& 0x03FFFFFFFFFFFFFF = (Datum.edge d c x tm).body := by
  apply word_eq_of_tag_payload
  · exact (slice_and_cleared _ (by decide)).trans (body_edge d c x tm).1.symm
  · rw [slice_and_kept _ (by decide), wordOfDatum_edge_eq_tag_or_body, slice_or,
      slice_place_apart _ _ _ _ _ (by decide)]
    exact BitVec.zero_or

/-- R98: the word of one direction from that of the other, by a change of tag. -/
theorem wordOfDatum_edge_retag (t : Tags) (hi : BitVec 20 → BitVec 38) (d d' : Dir) (c : BitVec 7)
    (x : BitVec 22) (tm : BitVec 29) :
    wordOfDatum t hi (.edge d' c x tm) =
      (wordOfDatum t hi (.edge d c x tm) &&& 0x03FFFFFFFFFFFFFF) ||| place 64 (t.edge d') 58 := by
  rw [wordOfDatum_edge_and_payloadMask, wordOfDatum_edge_eq_tag_or_body, BitVec.or_comm]
  rfl

theorem wordOfDatum_edge_formula (t : Tags) (hi : BitVec 20 → BitVec 38) (d : Dir) (c : BitVec 7)
    (x : BitVec 22) (tm : BitVec 29) :
    wordOfDatum t hi (.edge d c x tm) =
      (t.edge d).setWidth 64 <<< 58 ||| c.setWidth 64 <<< 51 ||| x.setWidth 64 <<< 29 ||| tm.setWidth 64 := by
  rw [← place_zero 64 tm]
  rfl

theorem wordOfDatum_frameStart_formula (t : Tags) (hi : BitVec 20 → BitVec 38) (f : BitVec 24) (o : BitVec 16) :
    wordOfDatum t hi (.frameStart f o) =
      t.frameStart.setWidth 64 <<< 58 ||| o.setWidth 64 <<< 24 ||| f.setWidth 64 := by
  rw [← place_zero 64 f]
  rfl

theorem wordOfDatum_frameSize_formula (t : Tags) (hi : BitVec 20 → BitVec 38) (n : BitVec 20) :
    wordOfDatum t hi (.frameSize n) =
      t.frameSize.setWidth 64 <<< 58 ||| (fsizePayload hi n).setWidth 64 := by
  rw [← place_zero 64 (fsizePayload hi n)]
  rfl

/-! ## The descriptors of WC's commands -/

theorem operandsOf_wcEnc_illFormed {d : BitVec 128} (h : datumOfRegister (slice d 0 67) = none) :
    operandsOf .wcEnc d = .error .illFormedDatum := by
  simp only [operandsOf, h]

theorem wcDec_row (w : BitVec 64) : (0x0#4 ++ 0#60 ++ w) &&& Op.wcDec.mask = Op.wcDec.pattern := by
  have hmask : Op.wcDec.mask = BitVec.allOnes 64 ++ 0#64 := by decide
  have hpattern : Op.wcDec.pattern = 0x0#4 ++ 0#60 ++ 0#64 := by decide
  rw [hmask, hpattern]
  exact append_and_upperMask (0x0#4 ++ 0#60) w

theorem wcEnc_row (r : BitVec 67) : (0x1#4 ++ 0#57 ++ r) &&& Op.wcEnc.mask = Op.wcEnc.pattern := by
  have hmask : Op.wcEnc.mask = BitVec.allOnes 61 ++ 0#67 := by decide
  have hpattern : Op.wcEnc.pattern = 0x1#4 ++ 0#57 ++ 0#67 := by decide
  rw [hmask, hpattern]
  exact append_and_upperMask (0x1#4 ++ 0#57) r

theorem decodeCommand_wcDec (w : BitVec 64) : decodeCommand .wc (0x0#4 ++ 0#60 ++ w) = .ok (.wcDec w) := by
  have hword : slice (0x0#4 ++ 0#60 ++ w) 0 64 = w := slice_append_bottom _ w
  calc decodeCommand .wc (0x0#4 ++ 0#60 ++ w)
      = operandsOf .wcDec (0x0#4 ++ 0#60 ++ w) := decodeCommand_of_match .wcDec _ (wcDec_row w)
    _ = .ok (.wcDec w) := by rw [operandsOf, hword]

/-- The register's own check is all that is left once the row of `WC.ENC` matches. -/
theorem decodeCommand_wcEnc (r : BitVec 67) :
    decodeCommand .wc (0x1#4 ++ 0#57 ++ r) = operandsOf .wcEnc (0x1#4 ++ 0#57 ++ r) :=
  decodeCommand_of_match .wcEnc _ (wcEnc_row r)

end Sys2Proof
end

section
/-! PROOFS. The statements of the word codec (40_wordcodec.md R90 to R101): `WC.DEC` answers `datumOfWord`, `WC.ENC` answers
`wordOfDatum`, so each is a fact about these two functions. -/

namespace Sys2Proof.Machine

/-- Settles O8: what encode writes decode reads back; an invalid datum is a word with a recognised tag, and such a word does
not decode to Unrecognized. -/
theorem codecRoundTrip : Obligations.CodecRoundTrip := by
  unfold Obligations.CodecRoundTrip
  intro d s hd
  refine ⟨_, _, exec_wcEnc_eq_withWc d s, exec_wcDec_eq_withWc _ _,
    datumOfWord_wordOfDatum hd Config.fsizeHigh d, fun hinvalid => ?_⟩
  obtain ⟨w, rfl, hrec⟩ := Datum.eq_unrecognized_of_not_valid hinvalid
  exact datumOfWord_ne_unrecognized hd hrec

/-- Settles O2: the arm reads bits [39:0] only, under a tag that the masked words share. -/
theorem frameStartArmReadsItsFields : Obligations.FrameStartArmReadsItsFields := by
  unfold Obligations.FrameStartArmReadsItsFields
  intro w s htag
  have hdatum : datumOfWord s.cfg.tags w = decodeFrameStart w := datumOfWord_frameStart htag
  refine ⟨_, exec_wcDec_eq_withWc w s, hdatum,
    (congrArg Datum.register hdatum).trans (register_decodeFrameStart w),
    fun w' hmask => ⟨_, exec_wcDec_eq_withWc w' s, ?_⟩⟩
  have htag' : slice w' 58 6 = s.cfg.tags.frameStart := (slice_eq_of_and_eq hmask (by decide)).trans htag
  have hframe : slice w' 0 24 = slice w 0 24 := slice_eq_of_and_eq hmask (by decide)
  have hoffset : slice w' 24 16 = slice w 24 16 := slice_eq_of_and_eq hmask (by decide)
  calc datumOfWord s.cfg.tags w'
      = decodeFrameStart w' := datumOfWord_frameStart htag'
    _ = decodeFrameStart w := by rw [decodeFrameStart, hframe, hoffset, decodeFrameStart]
    _ = datumOfWord s.cfg.tags w := hdatum.symm

/-- Settles O3: the arm reads bits [19:0] only, under a tag that the masked words share. -/
theorem frameSizeArmReadsItsField : Obligations.FrameSizeArmReadsItsField := by
  unfold Obligations.FrameSizeArmReadsItsField
  intro w s hd htag
  have hdatum : datumOfWord s.cfg.tags w = decodeFrameSize w := datumOfWord_frameSize hd htag
  refine ⟨_, exec_wcDec_eq_withWc w s, hdatum,
    (congrArg Datum.register hdatum).trans (register_decodeFrameSize w),
    fun w' hmask => ⟨_, exec_wcDec_eq_withWc w' s, ?_⟩⟩
  have htag' : slice w' 58 6 = s.cfg.tags.frameSize := (slice_eq_of_and_eq hmask (by decide)).trans htag
  have hsize : slice w' 0 20 = slice w 0 20 := slice_eq_of_and_eq hmask (by decide)
  calc datumOfWord s.cfg.tags w'
      = decodeFrameSize w' := datumOfWord_frameSize hd htag'
    _ = decodeFrameSize w := by rw [decodeFrameSize, hsize, decodeFrameSize]
    _ = datumOfWord s.cfg.tags w := hdatum.symm

/-- Settles O4: both directions share one arm, which the tag selects. -/
theorem edgeArmReadsItsFields : Obligations.EdgeArmReadsItsFields := by
  unfold Obligations.EdgeArmReadsItsFields
  intro w s d hd htag
  have hdatum : datumOfWord s.cfg.tags w = decodeEdge d w := datumOfWord_edge hd d htag
  have hregister : (decodeEdge d w).register = (if d = .leading then 2#3 else 3#3) ++ (w &&& 0x03FFFFFFFFFFFFFF) := by
    rw [register_decodeEdge, kind_decodeEdge]
  exact ⟨_, exec_wcDec_eq_withWc w s, hdatum, (congrArg Datum.register hdatum).trans hregister⟩

/-- Settles O7: the two words share their payload, the body of the datum. -/
theorem edgeWordsDifferInTheTagOnly : Obligations.EdgeWordsDifferInTheTagOnly := by
  unfold Obligations.EdgeWordsDifferInTheTagOnly
  intro c x tm w s
  have hformula (d : Dir) := wordOfDatum_edge_formula s.cfg.tags Config.fsizeHigh d c x tm
  have hretag (d d' : Dir) := wordOfDatum_edge_retag s.cfg.tags Config.fsizeHigh d d' c x tm
  exact ⟨_, _, _, exec_wcEnc_eq_withWc _ s, exec_wcEnc_eq_withWc _ s, exec_wcEnc_eq_withWc _ s, rfl,
    hformula .leading, hformula .trailing, hretag .leading .trailing, hretag .trailing .leading⟩

/-- Settles O9: the variant is the dispatch on the tag, and each edge tag has its own. -/
theorem tagAloneDecidesTheVariant : Obligations.TagAloneDecidesTheVariant := by
  unfold Obligations.TagAloneDecidesTheVariant
  intro w w' s hd htag
  have hkind : (datumOfWord s.cfg.tags w).kind = (datumOfWord s.cfg.tags w').kind := by
    rw [kind_datumOfWord, kind_datumOfWord, show slice w 58 6 = slice w' 58 6 from htag]
  exact ⟨_, _, exec_wcDec_eq_withWc w s, exec_wcDec_eq_withWc w' s, hkind,
    kind_datumOfWord_eq_edge_iff hd w .leading, kind_datumOfWord_eq_edge_iff hd w .trailing⟩

/-- Settles O10: encode after decode, arm by arm. -/
theorem wordRoundTripWhere : Obligations.WordRoundTripWhere := by
  unfold Obligations.WordRoundTripWhere
  intro w s hd
  exact ⟨_, _, exec_wcDec_eq_withWc w s, exec_wcEnc_eq_withWc _ _,
    wordOfDatum_datumOfWord_eq_iff hd Config.fsizeHigh w⟩

/-- Settles O1: the descriptor's row, and decode with its arms written out. -/
theorem wcDecAnswersTheDatum : Obligations.WcDecAnswersTheDatum := by
  unfold Obligations.WcDecAnswersTheDatum
  exact fun w s => ⟨decodeCommand_wcDec w, exec_wcDec_eq_withWc w s⟩

/-- Settles O5: the last arm keeps the whole word. -/
theorem unknownTagKeepsTheWord : Obligations.UnknownTagKeepsTheWord := by
  unfold Obligations.UnknownTagKeepsTheWord
  intro w s htag
  have hdatum : datumOfWord s.cfg.tags w = .unrecognized w :=
    datumOfWord_unknown (Tags.recognises_eq_false_of_not_mem htag)
  exact ⟨_, exec_wcDec_eq_withWc w s, rfl, hdatum, (congrArg Datum.register hdatum).trans (register_unrecognized w)⟩

/-- Settles O6: a register decides whether its descriptor is accepted, and each arm of encode has its formula. -/
theorem wcEncAnswersTheWord : Obligations.WcEncAnswersTheWord := by
  unfold Obligations.WcEncAnswersTheWord
  intro d s
  refine ⟨?accepted, fun r hr => ?refused, fsizePayload_low Config.fsizeHigh, ?word⟩
  case accepted =>
    rw [decodeCommand_wcEnc, operandsOf_wcEnc]
    rw [slice_append_bottom, datumOfRegister_register]
  case refused =>
    rw [decodeCommand_wcEnc, operandsOf_wcEnc_illFormed]
    rw [slice_append_bottom, hr]
  case word =>
    rw [exec_wcEnc_eq_withWc]
    cases d with
    | frameStart f o => rw [wordOfDatum_frameStart_formula]; rfl
    | frameSize n => rw [wordOfDatum_frameSize_formula]; rfl
    | edge d c x tm =>
      rw [wordOfDatum_edge_formula]
      cases d with
      | leading | trailing => rfl
    | unrecognized w => rfl

end Sys2Proof.Machine
end

section
/-! PROOFS. The descriptors of TO's commands (30_encoding.md R76, R78). -/

namespace Sys2Proof

/-! ## The descriptor of a hit -/

/-- The layout of R76 for a command with the operands of a hit, under any `op`. -/
def hitLayout (op : BitVec 4) (dir : Dir) (chan : BitVec 15) (time : BitVec 64) (tot : BitVec 32) : BitVec 128 :=
  op ++ dir.bit ++ 0#12 ++ chan ++ tot ++ time

variable (op : BitVec 4) (dir : Dir) (chan : BitVec 15) (time : BitVec 64) (tot : BitVec 32)

theorem slice_hitLayout_time : slice (hitLayout op dir chan time tot) 0 64 = time :=
  slice_append_bottom _ time

theorem slice_hitLayout_tot : slice (hitLayout op dir chan time tot) 64 32 = tot := by
  rw [hitLayout, slice_append_high _ time 64 32 le_rfl]
  exact slice_append_bottom _ tot

theorem slice_hitLayout_chan : slice (hitLayout op dir chan time tot) 96 15 = chan := by
  rw [hitLayout, slice_append_high _ time 96 15 (by decide), slice_append_high _ tot _ 15 (by decide)]
  exact slice_append_bottom _ chan

theorem slice_hitLayout_dir : slice (hitLayout op dir chan time tot) 123 1 = dir.bit := by
  rw [hitLayout, slice_append_high _ time 123 1 (by decide), slice_append_high _ tot _ 1 (by decide),
    slice_append_high _ chan _ 1 (by decide), slice_append_high _ 0#12 _ 1 (by decide)]
  exact slice_append_bottom op dir.bit

theorem append_and_append_of_eq {m n : Nat} {a x p : BitVec m} {b y r : BitVec n} (hhigh : a &&& x = p)
    (hlow : b &&& y = r) : (a ++ b) &&& (x ++ y) = p ++ r := by
  rw [BitVec.and_append, hhigh, hlow]

/-- A mask that keeps `op` and the reserved bits clears the operands. -/
theorem hitLayout_and_mask :
    hitLayout op dir chan time tot &&&
        (BitVec.allOnes 4 ++ 0#1 ++ BitVec.allOnes 12 ++ 0#15 ++ 0#32 ++ 0#64) =
      op ++ 0#1 ++ 0#12 ++ 0#15 ++ 0#32 ++ 0#64 :=
  have hop : (op ++ dir.bit) &&& (BitVec.allOnes 4 ++ 0#1) = op ++ 0#1 := append_and_upperMask op dir.bit
  have hreserved := append_and_append_of_eq hop (BitVec.and_allOnes (x := 0#12))
  have hchan := append_and_append_of_eq hreserved (BitVec.and_zero (x := chan))
  have htot := append_and_append_of_eq hchan (BitVec.and_zero (x := tot))
  append_and_append_of_eq htot (BitVec.and_zero (x := time))

/-! ## The two rows -/

theorem toAdd_row : hitLayout 0x4#4 dir chan time tot &&& Op.toAdd.mask = Op.toAdd.pattern := by
  have hmask : Op.toAdd.mask = BitVec.allOnes 4 ++ 0#1 ++ BitVec.allOnes 12 ++ 0#15 ++ 0#32 ++ 0#64 := by decide
  have hpattern : Op.toAdd.pattern = 0x4#4 ++ 0#1 ++ 0#12 ++ 0#15 ++ 0#32 ++ 0#64 := by decide
  rw [hmask, hpattern, hitLayout_and_mask]

theorem decodeCommand_toAdd :
    decodeCommand .tord (hitLayout 0x4#4 dir chan time tot) = .ok (.toAdd dir chan time tot) :=
  calc decodeCommand .tord (hitLayout 0x4#4 dir chan time tot)
      = operandsOf .toAdd (hitLayout 0x4#4 dir chan time tot) :=
        decodeCommand_of_match .toAdd _ (toAdd_row dir chan time tot)
    _ = .ok (.toAdd dir chan time tot) := by
        simp only [operandsOf, slice_hitLayout_time, slice_hitLayout_tot, slice_hitLayout_chan, slice_hitLayout_dir,
          dir_ofBit_bit]

theorem decodeCommand_toMerge : decodeCommand .tord (0x5#4 ++ 0#124) = .ok .toMerge :=
  decodeCommand_of_match .toMerge _ (by decide)

end Sys2Proof
end

section
/-! PROOFS. The merge as a priority queue (41_timeorderer.md R111): which head the scan selects, the emission loop as a
relation between the queues of the channels and the hits emitted, and what every such emission has. -/

namespace Sys2Proof.Machine

/-! ## The scan -/

/-- `h`, at channel `c`, is the least of the heads by time and then by channel. -/
abbrev IsLeastHead (n : Nat) (head : Nat → Option Hit) (c : Nat) (h : Hit) : Prop :=
  c < n ∧ head c = some h ∧ ∀ d < n, ∀ g, head d = some g → h.time < g.time ∨ (h.time = g.time ∧ c ≤ d)

/-- What the scan over the channels `0 .. n-1` may answer. -/
def SelectsLeast (n : Nat) (head : Nat → Option Hit) : Option (Nat × Hit) → Prop
  | none => ∀ c < n, head c = none
  | some (c, h) => IsLeastHead n head c h

/-- A channel whose head is no earlier leaves the least head. -/
theorem IsLeastHead.succ {n c : Nat} {head : Nat → Option Hit} {h : Hit} (hleast : IsLeastHead n head c h)
    (hlast : ∀ g, head n = some g → ¬ g.time < h.time) : IsLeastHead (n + 1) head c h := by
  obtain ⟨hc, hhead, hmin⟩ := hleast
  refine ⟨hc.trans n.lt_succ_self, hhead, Nat.forall_lt_succ_right.2 ⟨hmin, fun g hg => ?_⟩⟩
  have := hlast g hg
  bv_omega

/-- A channel whose head is earlier than all others has the least head. -/
theorem isLeastHead_last {n : Nat} {head : Nat → Option Hit} {h : Hit} (hhead : head n = some h)
    (hearlier : ∀ d < n, ∀ g, head d = some g → h.time < g.time) : IsLeastHead (n + 1) head n h := by
  refine ⟨n.lt_succ_self, hhead, Nat.forall_lt_succ_right.2 ⟨fun d hd g hg => .inl (hearlier d hd g hg), ?_⟩⟩
  exact fun g hg => .inr ⟨congrArg Hit.time (Option.some.inj (hhead.symm.trans hg)), le_rfl⟩

theorem better_of_no_head {buckets : List (List Hit)} {cur : List Nat} {c : Nat} (hhead : headAt buckets cur c = none)
    (best : Option (Nat × Hit)) : better buckets cur best c = best := by
  simp only [better, hhead]

theorem better_none {buckets : List (List Hit)} {cur : List Nat} {c : Nat} {h : Hit}
    (hhead : headAt buckets cur c = some h) : better buckets cur none c = some (c, h) := by
  simp only [better, hhead]

theorem better_some {buckets : List (List Hit)} {cur : List Nat} {c b : Nat} {g h : Hit}
    (hhead : headAt buckets cur c = some h) :
    better buckets cur (some (b, g)) c = if h.time < g.time then some (c, h) else some (b, g) := by
  simp only [better, hhead]

/-- One more round of the scan: the strict comparison keeps the earlier channel on a tie. -/
theorem SelectsLeast.better {n : Nat} {buckets : List (List Hit)} {cur : List Nat} {best : Option (Nat × Hit)}
    (hbest : SelectsLeast n (headAt buckets cur) best) :
    SelectsLeast (n + 1) (headAt buckets cur) (better buckets cur best n) := by
  cases hhead : headAt buckets cur n with
  | none =>
    rw [better_of_no_head hhead]
    cases best with
    | none => exact Nat.forall_lt_succ_right.2 ⟨hbest, hhead⟩
    | some p => exact IsLeastHead.succ hbest fun g hg => by cases hhead.symm.trans hg
  | some h =>
    cases best with
    | none =>
      rw [better_none hhead]
      exact isLeastHead_last hhead fun d hd g hg => by cases (hbest d hd).symm.trans hg
    | some p =>
      rw [better_some hhead]
      split
      case isTrue hlt =>
        obtain ⟨-, -, hmin⟩ := hbest
        refine isLeastHead_last hhead fun d hd k hk => ?_
        have := hmin d hd k hk
        bv_omega
      case isFalse hge =>
        refine IsLeastHead.succ hbest fun k hk => ?_
        obtain rfl : h = k := Option.some.inj (hhead.symm.trans hk)
        exact hge

theorem selectsLeast_pickHead (n : Nat) (buckets : List (List Hit)) (cur : List Nat) :
    SelectsLeast n (headAt buckets cur) (pickHead n buckets cur) := by
  induction n with
  | zero => exact fun c hc => absurd hc c.not_lt_zero
  | succ n ih =>
    have hround : pickHead (n + 1) buckets cur = better buckets cur (pickHead n buckets cur) n := by
      simp [pickHead, List.range_succ]
    rw [hround]
    exact ih.better

/-- There is one least head: the scan has no choice. -/
theorem IsLeastHead.eq {n c d : Nat} {head : Nat → Option Hit} {g h : Hit} (hg : IsLeastHead n head c g)
    (hh : IsLeastHead n head d h) : g = h := by
  obtain ⟨hc, hcg, hgleast⟩ := hg
  obtain ⟨hd, hdh, hhleast⟩ := hh
  have hcd : c = d := by
    have := hgleast d hd h hdh
    have := hhleast c hc g hcg
    bv_omega
  subst hcd
  exact Option.some.inj (hcg.symm.trans hdh)

/-! ## The queues of the channels -/

/-- What is left of each bucket behind its cursor. -/
def queueAt (buckets : List (List Hit)) (cur : List Nat) (c : Nat) : List Hit :=
  (bucketAt buckets c).drop (cur.getD c 0)

theorem head?_queueAt (buckets : List (List Hit)) (cur : List Nat) :
    (fun c => (queueAt buckets cur c).head?) = headAt buckets cur :=
  funext fun _ => List.head?_drop

theorem queueAt_zero (n : Nat) (buckets : List (List Hit)) :
    queueAt buckets (List.replicate n 0) = bucketAt buckets := by
  funext c
  rw [queueAt, List.getD_eq_getElem?_getD, List.getElem?_getD_replicate_default_eq, List.drop_zero]

/-- The advance of a cursor takes the head off its channel's queue and leaves the other queues. -/
theorem queueAt_advance (buckets : List (List Hit)) {cur : List Nat} {c : Nat} (hc : c < cur.length) :
    queueAt buckets (advance cur c) = Function.update (queueAt buckets cur) c (queueAt buckets cur c).tail := by
  funext d
  by_cases hd : d = c
  · subst hd
    simp [queueAt, advance, List.getD_eq_getElem?_getD, hc]
  · simp [queueAt, advance, List.getD_eq_getElem?_getD, hd, Ne.symm hd]

/-- All that the queues of the channels `0 .. n-1` hold, channel by channel. -/
def pending (n : Nat) (q : Nat → List Hit) : List Hit :=
  (List.range n).flatMap q

theorem mem_pending_iff {n : Nat} {q : Nat → List Hit} {h : Hit} : h ∈ pending n q ↔ ∃ c < n, h ∈ q c := by
  simp [pending]

theorem pending_eq_nil_iff {n : Nat} {q : Nat → List Hit} : pending n q = [] ↔ ∀ c < n, q c = [] := by
  simp [pending]

theorem length_pending_bucketAt (n : Nat) (buckets : List (List Hit)) :
    (pending n (bucketAt buckets)).length = heldHits n buckets :=
  List.length_flatMap

theorem pending_bucketAt (buckets : List (List Hit)) :
    pending buckets.length (bucketAt buckets) = buckets.flatten := by
  have hmap : (List.range buckets.length).map (bucketAt buckets) = buckets := by
    apply List.ext_getElem
    · simp
    · intro c _ hc
      simp [bucketAt, hc]
  rw [pending, List.flatMap_def, hmap]

theorem flatMap_perm_cons_update {l : List Nat} {q : Nat → List Hit} {c : Nat} {h : Hit} {t : List Hit}
    (hl : l.Nodup) (hc : c ∈ l) (hq : q c = h :: t) :
    (l.flatMap q).Perm (h :: l.flatMap (Function.update q c t)) := by
  induction l with
  | nil => simp at hc
  | cons d l ih =>
    obtain ⟨hd, hl⟩ := List.nodup_cons.1 hl
    rw [List.flatMap_cons, List.flatMap_cons]
    by_cases hcd : c = d
    · subst hcd
      have hrest : l.flatMap (Function.update q c t) = l.flatMap q :=
        List.flatMap_congr fun e he => Function.update_of_ne (ne_of_mem_of_not_mem he hd) t q
      rw [hq, Function.update_self, hrest, List.cons_append]
    · have hcl : c ∈ l := (List.mem_cons.1 hc).resolve_left hcd
      rw [Function.update_of_ne (Ne.symm hcd)]
      exact ((ih hl hcl).append_left (q d)).trans List.perm_middle

/-- Taking the head off one queue takes one hit off what the queues hold. -/
theorem pending_perm_cons_update {n c : Nat} {q : Nat → List Hit} {h : Hit} {t : List Hit} (hc : c < n)
    (hq : q c = h :: t) : (pending n q).Perm (h :: pending n (Function.update q c t)) :=
  flatMap_perm_cons_update List.nodup_range (List.mem_range.2 hc) hq

/-! ## The emission -/

/-- The priority queue of R111: the hits `out` are emitted from the queues `q`, at each step the least head. -/
inductive MergesTo (n : Nat) : (Nat → List Hit) → List Hit → Prop
  | done {q : Nat → List Hit} (hq : ∀ c < n, q c = []) : MergesTo n q []
  | emit {q : Nat → List Hit} {c : Nat} {h : Hit} {t out : List Hit} (hq : q c = h :: t)
      (hleast : IsLeastHead n (fun d => (q d).head?) c h) (hrest : MergesTo n (Function.update q c t) out) :
      MergesTo n q (h :: out)

/-- The loop is this emission when its bound is the number of hits left. -/
theorem mergesTo_mergeLoop (n : Nat) (buckets : List (List Hit)) (fuel : Nat) (cur : List Nat) (hcur : cur.length = n)
    (hfuel : (pending n (queueAt buckets cur)).length = fuel) :
    MergesTo n (queueAt buckets cur) (mergeLoop n buckets fuel cur) := by
  induction fuel generalizing cur with
  | zero => exact .done (pending_eq_nil_iff.1 (List.length_eq_zero_iff.1 hfuel))
  | succ fuel ih =>
    have hselect := selectsLeast_pickHead n buckets cur
    rw [← head?_queueAt] at hselect
    cases hpick : pickHead n buckets cur with
    | none =>
      rw [hpick] at hselect
      simp only [mergeLoop, hpick]
      exact .done fun c hc => List.head?_eq_none_iff.1 (hselect c hc)
    | some p =>
      obtain ⟨c, h⟩ := p
      rw [hpick] at hselect
      simp only [mergeLoop, hpick]
      have ⟨hc, hhead, _⟩ := hselect
      have hq : queueAt buckets cur c = h :: (queueAt buckets cur c).tail := List.eq_cons_of_mem_head? hhead
      have hadvance := queueAt_advance buckets (hcur.symm ▸ hc : c < cur.length)
      refine .emit hq hselect ?_
      rw [← hadvance]
      refine ih (advance cur c) (by simp [advance, hcur]) ?_
      have hlength := (pending_perm_cons_update hc hq).length_eq
      rw [hfuel, List.length_cons, ← hadvance] at hlength
      exact (Nat.succ.inj hlength).symm

theorem mergesTo_mergedHits (n : Nat) (buckets : List (List Hit)) :
    MergesTo n (bucketAt buckets) (mergedHits n buckets) := by
  have hloop := mergesTo_mergeLoop n buckets (heldHits n buckets) (List.replicate n 0) List.length_replicate
  rw [queueAt_zero] at hloop
  exact hloop (length_pending_bucketAt n buckets)

/-- No hits held, none emitted. -/
theorem mergedHits_replicate (n m : Nat) : mergedHits n (List.replicate m []) = [] := by
  rw [mergedHits, heldHits_replicate, mergeLoop]

/-! ## What every emission has -/

theorem MergesTo.perm {n : Nat} {q : Nat → List Hit} {out : List Hit} (hm : MergesTo n q out) :
    out.Perm (pending n q) := by
  induction hm with
  | done hq => rw [pending_eq_nil_iff.2 hq]
  | emit hq hleast _ ih => exact (ih.cons _).trans (pending_perm_cons_update hleast.1 hq).symm

/-- Every hit waits in the queue of its own channel (10_state.md R24). -/
abbrev OwnChannels (n : Nat) (q : Nat → List Hit) : Prop :=
  ∀ c < n, ∀ h ∈ q c, h.chan.toNat = c

/-- A property of the queues that a tail inherits survives an emission. -/
theorem forall_queue_update {n c : Nat} {q : Nat → List Hit} {h : Hit} {t : List Hit} {P : Nat → List Hit → Prop}
    (hP : ∀ d < n, P d (q d)) (hq : q c = h :: t) (htail : P c (h :: t) → P c t) :
    ∀ d < n, P d (Function.update q c t d) := by
  intro d hd
  by_cases hdc : d = c
  · subst hdc
    rw [Function.update_self]
    exact htail (hq ▸ hP d hd)
  · rw [Function.update_of_ne hdc]
    exact hP d hd

theorem OwnChannels.update {n c : Nat} {q : Nat → List Hit} {h : Hit} {t : List Hit} (hown : OwnChannels n q)
    (hq : q c = h :: t) : OwnChannels n (Function.update q c t) :=
  forall_queue_update (P := fun d l => ∀ g ∈ l, g.chan.toNat = d) hown hq
    fun hall g hg => hall g (List.mem_cons_of_mem h hg)

theorem OwnChannels.chan_eq {n c : Nat} {q : Nat → List Hit} {h : Hit} {t : List Hit} (hown : OwnChannels n q)
    (hc : c < n) (hq : q c = h :: t) : h.chan.toNat = c :=
  hown c hc h (hq ▸ List.mem_cons_self)

theorem MergesTo.filter_chan {n : Nat} {q : Nat → List Hit} {out : List Hit} (hm : MergesTo n q out)
    (hown : OwnChannels n q) {d : Nat} (hd : d < n) : (out.filter fun h => h.chan.toNat = d) = q d := by
  induction hm with
  | done hq => exact (hq d hd).symm
  | @emit q c h t out hq hleast _ ih =>
    have hchan : h.chan.toNat = c := hown.chan_eq hleast.1 hq
    have hrest := ih (hown.update hq)
    by_cases hdc : d = c
    · subst hdc
      rw [Function.update_self] at hrest
      rw [List.filter_cons_of_pos (by simpa using hchan), hrest, hq]
    · rw [Function.update_of_ne hdc] at hrest
      rw [List.filter_cons_of_neg (by simpa [hchan] using Ne.symm hdc), hrest]

/-! ## The order of the hits emitted -/

/-- The order by `(time, chan)`. -/
abbrev KeyLe (g h : Hit) : Prop :=
  g.time < h.time ∨ (g.time = h.time ∧ g.chan ≤ h.chan)

/-- Where every queue is non-decreasing in time, its head stands for it, so the least head is least of all hits left. -/
theorem IsLeastHead.keyLe_of_mem {n c d : Nat} {q : Nat → List Hit} {g h : Hit}
    (hleast : IsLeastHead n (fun d => (q d).head?) c h) (hown : OwnChannels n q)
    (hmono : ∀ d < n, Nondecreasing (q d)) (hd : d < n) (hg : g ∈ q d) : KeyLe h g := by
  obtain ⟨hc, hhead, hmin⟩ := hleast
  have hhchan : h.chan.toNat = c := hown c hc h (List.mem_of_head? hhead)
  have hgchan : g.chan.toNat = d := hown d hd g hg
  cases hq : q d with
  | nil => simp [hq] at hg
  | cons k t =>
    have hk : h.time < k.time ∨ (h.time = k.time ∧ c ≤ d) := hmin d hd k (by simp [hq])
    have hkg : k.time ≤ g.time := by
      obtain ⟨hfirst, -⟩ := List.pairwise_cons.1 (hq ▸ hmono d hd)
      obtain rfl | ht := List.mem_cons.1 (hq ▸ hg)
      · exact BitVec.le_refl _
      · exact hfirst g ht
    unfold KeyLe
    bv_omega

theorem MergesTo.pairwise_keyLe {n : Nat} {q : Nat → List Hit} {out : List Hit} (hm : MergesTo n q out)
    (hown : OwnChannels n q) (hmono : ∀ c < n, Nondecreasing (q c)) : out.Pairwise KeyLe := by
  induction hm with
  | done => exact .nil
  | @emit q c h t out hq hleast hrest ih =>
    have hmono' : ∀ d < n, Nondecreasing (Function.update q c t d) :=
      forall_queue_update (P := fun _ => Nondecreasing) hmono hq List.Pairwise.of_cons
    refine .cons (fun g hg => ?_) (ih (hown.update hq) hmono')
    have hpending : g ∈ pending n q :=
      (pending_perm_cons_update hleast.1 hq).mem_iff.2 (List.mem_cons_of_mem h (hrest.perm.mem_iff.1 hg))
    obtain ⟨d, hd, hgd⟩ := mem_pending_iff.1 hpending
    exact hleast.keyLe_of_mem hown hmono hd hgd

theorem nondecreasing_of_pairwise_keyLe {out : List Hit} (h : out.Pairwise KeyLe) : Nondecreasing out :=
  h.imp fun {a b} (hab : a.time < b.time ∨ (a.time = b.time ∧ a.chan ≤ b.chan)) => by bv_omega

/-- On equal times the lower channel comes first. -/
theorem lt_of_pairwise_keyLe {out : List Hit} (h : out.Pairwise KeyLe) {i j : Nat} {a b : Hit} (ha : out[i]? = some a)
    (hb : out[j]? = some b) (htime : a.time = b.time) (hchan : a.chan < b.chan) : i < j := by
  obtain ⟨hi, rfl⟩ := List.getElem?_eq_some_iff.1 ha
  obtain ⟨hj, rfl⟩ := List.getElem?_eq_some_iff.1 hb
  by_contra hij
  obtain rfl | hji := (Nat.le_of_not_lt hij).eq_or_lt
  · exact BitVec.lt_irrefl _ hchan
  · have hkey : KeyLe out[j] out[i] := List.pairwise_iff_getElem.1 h j i hj hi hji
    unfold KeyLe at hkey
    bv_omega

/-! ## The i-th hit emitted -/

/-- The head of channel `c` once the hits `emitted` have left the queues `q`: the first of its hits not emitted. -/
abbrev headAfter (q : Nat → List Hit) (emitted : List Hit) (c : Nat) : Option Hit :=
  (q c)[(emitted.filter fun h => h.chan.toNat = c).length]?

theorem headAfter_nil (q : Nat → List Hit) : headAfter q [] = fun c => (q c).head? :=
  funext fun _ => List.head?_eq_getElem?.symm

/-- The first hit emitted is the one that its queue loses. -/
theorem headAfter_cons {q : Nat → List Hit} {h : Hit} {t : List Hit} (hq : q h.chan.toNat = h :: t)
    (emitted : List Hit) :
    headAfter q (h :: emitted) = headAfter (Function.update q h.chan.toNat t) emitted := by
  funext d
  by_cases hd : h.chan.toNat = d
  · subst hd
    simp [headAfter, hq]
  · simp [headAfter, hd, Function.update_of_ne (Ne.symm hd)]

/-- The i-th answer of an emission is what a scan of the heads after the first `i` hits selects. -/
theorem MergesTo.getElem?_iff {n : Nat} {q : Nat → List Hit} {out : List Hit} (hm : MergesTo n q out)
    (hown : OwnChannels n q) (i : Nat) :
    (∀ g, out[i]? = some g ↔ IsLeastHead n (headAfter q (out.take i)) g.chan.toNat g) ∧
    (out[i]? = none ↔ ∀ c < n, headAfter q (out.take i) c = none) := by
  induction hm generalizing i with
  | @done q hq =>
    have hnone : ∀ c < n, headAfter q ([].take i) c = none := fun c hc => by simp [headAfter, hq c hc]
    constructor
    · intro g
      constructor
      · simp
      · rintro ⟨hc, hhead, -⟩
        cases (hnone _ hc).symm.trans hhead
    · simpa using hnone
  | @emit q c h t out hq hleast _ ih =>
    obtain rfl : h.chan.toNat = c := hown.chan_eq hleast.1 hq
    cases i with
    | zero =>
      rw [List.take_zero, headAfter_nil, List.getElem?_cons_zero]
      constructor
      · intro g
        constructor
        · rintro ⟨⟩
          exact hleast
        · exact fun hg => congrArg some (hleast.eq hg)
      · have hsome : ¬ ∀ d < n, (q d).head? = none := fun hall => by simpa [hq] using hall _ hleast.1
        simpa using hsome
    | succ i =>
      rw [List.take_succ_cons, headAfter_cons hq, List.getElem?_cons_succ]
      exact ih (hown.update hq) i

end Sys2Proof.Machine
end

section
/-! PROOFS. The statements of TO (41_timeorderer.md R110 to R115). -/

namespace Sys2Proof.Machine

/-! ## The form of TO's buckets -/

theorem Memory.wf.ownChannels {s : State} (h : Memory.wf s) :
    OwnChannels s.tord.nchan.val (bucketAt s.tord.buckets) := by
  obtain ⟨hlength, -, hown, -⟩ := h
  rw [← hlength]
  exact hown

theorem nondecreasing_bucketAt {buckets : List (List Hit)} (h : monotoneBuckets buckets) {c : Nat}
    (hc : c < buckets.length) : Nondecreasing (bucketAt buckets c) := by
  have hbucket : bucketAt buckets c = buckets[c] := List.getD_eq_getElem buckets [] hc
  rw [hbucket]
  exact h _ (List.getElem_mem hc)

/-! ## TO.MERGE -/

theorem exec_toMerge_eq (s : State) :
    exec .toMerge s = .next (s.withTord { s.tord with
      status := 0, info := .none
      hits := mergedHits s.tord.nchan.val s.tord.buckets
      buckets := List.replicate s.tord.nchan.val []
      cur := List.replicate s.tord.nchan.val 0 }) := rfl

/-- Settles O25: the loop emits as a priority queue does, step by step. -/
theorem toMergeFollowsItsRule : Obligations.ToMergeFollowsItsRule := by
  unfold Obligations.ToMergeFollowsItsRule
  intro s
  exact ⟨decodeCommand_toMerge, _, _, exec_toMerge_eq s,
    fun hwf => (mergesTo_mergedHits s.tord.nchan.val s.tord.buckets).getElem?_iff hwf.ownChannels⟩

/-- Settles O27: the order by `(time, chan)` of the hits emitted gives both the order of time and that of the ties. -/
theorem mergeContract : Obligations.MergeContract := by
  unfold Obligations.MergeContract
  intro s hwf
  have hmerge := mergesTo_mergedHits s.tord.nchan.val s.tord.buckets
  have hlength : s.tord.buckets.length = s.tord.nchan.val := hwf.1
  have hperm : (mergedHits s.tord.nchan.val s.tord.buckets).Perm s.tord.buckets.flatten := by
    rw [← pending_bucketAt, hlength]
    exact hmerge.perm
  have hsorted (hmono : monotoneBuckets s.tord.buckets) :
      (mergedHits s.tord.nchan.val s.tord.buckets).Pairwise KeyLe :=
    hmerge.pairwise_keyLe hwf.ownChannels fun c hc => nondecreasing_bucketAt hmono (hlength ▸ hc)
  exact ⟨_, exec_toMerge_eq s, hperm, fun c hc => hmerge.filter_chan hwf.ownChannels hc,
    fun hmono => nondecreasing_of_pairwise_keyLe (hsorted hmono),
    fun hmono i j a b => lt_of_pairwise_keyLe (hsorted hmono)⟩

/-- Settles O28: the second merge finds the empty buckets of the first. -/
theorem mergeLeavesTheResetState : Obligations.MergeLeavesTheResetState := by
  unfold Obligations.MergeLeavesTheResetState
  intro s
  obtain ⟨-, hbuckets, hcur, -⟩ := TordState.reset_values s.tord.nchan
  exact ⟨_, _, exec_toMerge_eq s, exec_toMerge_eq _, rfl, hbuckets.symm, hcur.symm, rfl, mergedHits_replicate _ _⟩

/-! ## TO.ADD -/

theorem exec_toAdd_eq (dir : Dir) (chan : BitVec 15) (time : BitVec 64) (tot : BitVec 32) (s : State) :
    exec (.toAdd dir chan time tot) s = .next (addHit { dir := dir, chan := chan, time := time, tot := tot } s) := rfl

theorem addHit_of_chan_ge {h : Hit} {s : State} (hc : s.tord.nchan.val ≤ h.chan.toNat) :
    addHit h s = raiseTord .chanRange (.chan h.chan) s := by
  rw [addHit, if_pos hc]

theorem addHit_of_full {h : Hit} {s : State} (hc : h.chan.toNat < s.tord.nchan.val)
    (hfull : Cap.full s.cfg.toCap s.tord.held = true) :
    addHit h s = raiseTord .capacity (.count s.tord.held) s := by
  rw [addHit, if_neg hc.not_ge, if_pos hfull]

theorem addHit_of_room {h : Hit} {s : State} (hc : h.chan.toNat < s.tord.nchan.val)
    (hroom : Cap.full s.cfg.toCap s.tord.held = false) :
    addHit h s = okTord (s.withTord { s.tord with
      buckets := s.tord.buckets.set h.chan.toNat (bucketAt s.tord.buckets h.chan.toNat ++ [h]) }) := by
  rw [addHit, if_neg hc.not_ge, if_neg (Bool.eq_false_iff.1 hroom)]

/-- Settles O24: the descriptor's row, and the three ends of the append. -/
theorem toAddFollowsItsRule : Obligations.ToAddFollowsItsRule := by
  unfold Obligations.ToAddFollowsItsRule
  intro dir chan time tot s held
  refine ⟨decodeCommand_toAdd dir chan time tot, fun hc => ?range, fun hc hcap => ?full, fun hc hcap => ?room⟩
  case range =>
    rw [exec_toAdd_eq, addHit_of_chan_ge hc]
    rfl
  case full =>
    rw [exec_toAdd_eq, addHit_of_full hc ((Cap.full_eq_true_iff _ _).2 hcap)]
    rfl
  case room =>
    rw [exec_toAdd_eq, addHit_of_room hc ((Cap.full_eq_false_iff _ _).2 hcap)]
    exact ⟨_, rfl⟩

end Sys2Proof.Machine
end

section
/-! PROOFS. The descriptors of EB's commands (30_encoding.md R76, R78). -/

namespace Sys2Proof

/-! ## The rows of the commands with operands -/

theorem ebAdd_row (dir : Dir) (chan : BitVec 15) (time : BitVec 64) (tot : BitVec 32) :
    hitLayout 0x8#4 dir chan time tot &&& Op.ebAdd.mask = Op.ebAdd.pattern := by
  have hmask : Op.ebAdd.mask = BitVec.allOnes 4 ++ 0#1 ++ BitVec.allOnes 12 ++ 0#15 ++ 0#32 ++ 0#64 := by decide
  have hpattern : Op.ebAdd.pattern = 0x8#4 ++ 0#1 ++ 0#12 ++ 0#15 ++ 0#32 ++ 0#64 := by decide
  rw [hmask, hpattern, hitLayout_and_mask]

theorem ebFb_row (frame : BitVec 64) : (0x9#4 ++ 0#60 ++ frame) &&& Op.ebFb.mask = Op.ebFb.pattern := by
  have hmask : Op.ebFb.mask = BitVec.allOnes 64 ++ 0#64 := by decide
  have hpattern : Op.ebFb.pattern = 0x9#4 ++ 0#60 ++ 0#64 := by decide
  rw [hmask, hpattern]
  exact append_and_upperMask (0x9#4 ++ 0#60) frame

theorem ebSetsid_row (sid : BitVec 32) : (0xC#4 ++ 0#92 ++ sid) &&& Op.ebSetsid.mask = Op.ebSetsid.pattern := by
  have hmask : Op.ebSetsid.mask = BitVec.allOnes 96 ++ 0#32 := by decide
  have hpattern : Op.ebSetsid.pattern = 0xC#4 ++ 0#92 ++ 0#32 := by decide
  rw [hmask, hpattern]
  exact append_and_upperMask (0xC#4 ++ 0#92) sid

/-! ## What the decoder reads from them -/

theorem decodeCommand_ebAdd (dir : Dir) (chan : BitVec 15) (time : BitVec 64) (tot : BitVec 32) :
    decodeCommand .eb (hitLayout 0x8#4 dir chan time tot) = .ok (.ebAdd dir chan time tot) :=
  calc decodeCommand .eb (hitLayout 0x8#4 dir chan time tot)
      = operandsOf .ebAdd (hitLayout 0x8#4 dir chan time tot) :=
        decodeCommand_of_match .ebAdd _ (ebAdd_row dir chan time tot)
    _ = .ok (.ebAdd dir chan time tot) := by
        simp only [operandsOf, slice_hitLayout_time, slice_hitLayout_tot, slice_hitLayout_chan, slice_hitLayout_dir,
          dir_ofBit_bit]

theorem decodeCommand_ebFb (frame : BitVec 64) : decodeCommand .eb (0x9#4 ++ 0#60 ++ frame) = .ok (.ebFb frame) := by
  have hframe : slice (0x9#4 ++ 0#60 ++ frame) 0 64 = frame := slice_append_bottom _ frame
  calc decodeCommand .eb (0x9#4 ++ 0#60 ++ frame)
      = operandsOf .ebFb (0x9#4 ++ 0#60 ++ frame) := decodeCommand_of_match .ebFb _ (ebFb_row frame)
    _ = .ok (.ebFb frame) := by rw [operandsOf, hframe]

theorem decodeCommand_ebFlush : decodeCommand .eb (0xA#4 ++ 0#124) = .ok .ebFlush :=
  decodeCommand_of_match .ebFlush _ (by decide)

theorem decodeCommand_ebWrite : decodeCommand .eb (0xB#4 ++ 0#124) = .ok .ebWrite :=
  decodeCommand_of_match .ebWrite _ (by decide)

theorem decodeCommand_ebSetsid (sid : BitVec 32) :
    decodeCommand .eb (0xC#4 ++ 0#92 ++ sid) = .ok (.ebSetsid sid) := by
  have hsid : slice (0xC#4 ++ 0#92 ++ sid) 0 32 = sid := slice_append_bottom _ sid
  calc decodeCommand .eb (0xC#4 ++ 0#92 ++ sid)
      = operandsOf .ebSetsid (0xC#4 ++ 0#92 ++ sid) := decodeCommand_of_match .ebSetsid _ (ebSetsid_row sid)
    _ = .ok (.ebSetsid sid) := by rw [operandsOf, hsid]

end Sys2Proof
end

section
/-! PROOFS. What each command of EB ends in, one rule for each of its arms (42_eventbuilder.md R131 to R136). -/

namespace Sys2Proof.Machine

/-! ## The entry buffer -/

section
variable {e : Entry} {s : State}

theorem appendEntry_of_room (hroom : Cap.full s.cfg.ebCap s.eb.entries.length = false) :
    appendEntry e s = okEb (s.withEb { s.eb with entries := s.eb.entries ++ [e] }) := by
  rw [appendEntry, if_neg (Bool.eq_false_iff.1 hroom)]

theorem appendEntry_of_full (hfull : Cap.full s.cfg.ebCap s.eb.entries.length = true) :
    appendEntry e s = raiseEb .capacity (.count s.eb.entries.length) s := by
  rw [appendEntry, if_pos hfull]

theorem openEvent_of_room (hroom : Cap.full s.cfg.ebCap s.eb.entries.length = false) :
    openEvent e s = okEb (s.withEb { s.eb with
      startTime := e.time, entries := s.eb.entries ++ [e], isOpen := true }) := by
  rw [openEvent, if_neg (Bool.eq_false_iff.1 hroom)]

theorem openEvent_of_full (hfull : Cap.full s.cfg.ebCap s.eb.entries.length = true) :
    openEvent e s = raiseEb .capacity (.count s.eb.entries.length) s := by
  rw [openEvent, if_pos hfull]

/-- An append neither opens an event nor moves its window, and calls no sink, at a capacity too. -/
theorem appendEntry_keeps (e : Entry) (s : State) :
    (appendEntry e s).sink = s.sink ∧ (appendEntry e s).eb.isOpen = s.eb.isOpen ∧
      (appendEntry e s).eb.startTime = s.eb.startTime := by
  obtain ⟨-, h⟩ | ⟨-, h⟩ := appendEntry_cases e s
  · rw [h]; exact ⟨rfl, rfl, rfl⟩
  · rw [h]; exact ⟨rfl, rfl, rfl⟩

end

/-- The entry of a hit with its edge-tag word written out (30_encoding.md R70, R71). -/
theorem entryOfHit_eq (dir : Dir) (chan : BitVec 15) (time : BitVec 64) (tot : BitVec 32) :
    entryOfHit dir chan time tot =
      { tagword := dir.bit.setWidth 16 <<< 15 ||| chan.setWidth 16, time := time, tot := tot } := by
  rw [entryOfHit, tagword, place_zero, place]

/-! ## The sink -/

section
variable {r : Record} {s : State} {rest : State → State}

theorem sinkWrite_of_ok (hsink : s.sink.attached = true) (hok : s.sink.answer = .ok) :
    sinkWrite r s rest = .next (rest (pushRecord r s)) :=
  (sinkWrite_next_iff _ _ _ _).2 ⟨hsink, .inl ⟨hok, rfl⟩⟩

theorem sinkWrite_of_fail (hsink : s.sink.attached = true) (hfail : s.sink.answer = .fail) :
    sinkWrite r s rest = .next (raiseEb .sinkFail .none (pushRecord r s)) :=
  (sinkWrite_next_iff _ _ _ _).2 ⟨hsink, .inr ⟨hfail, rfl⟩⟩

theorem flushThen_of_ok (hsink : s.sink.attached = true) (hok : s.sink.answer = .ok) :
    flushThen s rest = .next (rest (pushRecord (eventRecord s) (clearEvent s))) :=
  sinkWrite_of_ok hsink hok

theorem flushThen_of_fail (hsink : s.sink.attached = true) (hfail : s.sink.answer = .fail) :
    flushThen s rest = .next (raiseEb .sinkFail .none (pushRecord (eventRecord s) (clearEvent s))) :=
  sinkWrite_of_fail hsink hfail

end

/-! ## EB.ADD -/

section
variable {dir : Dir} {chan : BitVec 15} {time : BitVec 64} {tot : BitVec 32} {s : State}

theorem exec_ebAdd_of_empty (hopen : s.eb.isOpen = false) :
    exec (.ebAdd dir chan time tot) s = .next (openEvent (entryOfHit dir chan time tot) s) := by
  rw [exec, execEbAdd, addArm_opening _ _ hopen]

theorem exec_ebAdd_of_early (hopen : s.eb.isOpen = true) (htime : time.toNat < s.eb.startTime.toNat) :
    exec (.ebAdd dir chan time tot) s = .next (raiseEb .order (.time time) s) := by
  rw [exec, execEbAdd, addArm_early _ _ hopen htime]

theorem exec_ebAdd_of_inside (hopen : s.eb.isOpen = true) (hstart : s.eb.startTime.toNat ≤ time.toNat)
    (hwindow : time.toNat - s.eb.startTime.toNat ≤ s.eb.dt.toNat) :
    exec (.ebAdd dir chan time tot) s = .next (appendEntry (entryOfHit dir chan time tot) s) := by
  rw [exec, execEbAdd, addArm_inside _ _ hopen hstart hwindow]

theorem exec_ebAdd_of_outside (hopen : s.eb.isOpen = true) (hstart : s.eb.startTime.toNat ≤ time.toNat)
    (hwindow : s.eb.dt.toNat < time.toNat - s.eb.startTime.toNat) :
    exec (.ebAdd dir chan time tot) s = flushThen s fun s' => okEb (s'.withEb { s'.eb with
      startTime := time, entries := [entryOfHit dir chan time tot], isOpen := true }) := by
  rw [exec, execEbAdd, addArm_overflow _ _ hopen hstart hwindow]

end

/-! ## EB.FB -/

section
variable {frame : BitVec 64} {s : State}

theorem exec_ebFb_of_drop (hopen : s.eb.isOpen = false) (hpolicy : s.cfg.fbPolicy = .drop) :
    exec (.ebFb frame) s = .next (okEb s) := by
  rw [exec, execEbFb, if_pos ⟨hopen, hpolicy⟩]

theorem exec_ebFb_of_kept (hkept : s.eb.isOpen = true ∨ s.cfg.fbPolicy = .carry) :
    exec (.ebFb frame) s = .next (appendEntry (marker frame) s) := by
  rw [exec, execEbFb, if_neg]
  rintro ⟨hopen, hpolicy⟩
  obtain h | h := hkept
  · exact absurd (h.symm.trans hopen) (by decide)
  · exact absurd (h.symm.trans hpolicy) (by decide)

/-- In no case does a frame boundary call the sink, open an event, or move the window (42_eventbuilder.md R138). -/
theorem exec_ebFb_keeps (frame : BitVec 64) (s : State) :
    ∃ t, exec (.ebFb frame) s = .next t ∧ t.sink = s.sink ∧ t.eb.isOpen = s.eb.isOpen ∧
      t.eb.startTime = s.eb.startTime := by
  refine ⟨_, rfl, ?_⟩
  obtain ⟨-, -, h⟩ | ⟨-, h⟩ := execEbFb_next frame s _ rfl
  · rw [h]; exact ⟨rfl, rfl, rfl⟩
  · rw [h]; exact appendEntry_keeps (marker frame) s

end

/-! ## EB.FLUSH, EB.WRITE, EB.SETSID -/

theorem exec_ebFlush_of_empty {s : State} (hopen : s.eb.isOpen = false) : exec .ebFlush s = .next (okEb s) := by
  rw [exec, execEbFlush, hopen]

theorem exec_ebFlush_of_open {s : State} (hopen : s.eb.isOpen = true) : exec .ebFlush s = flushThen s okEb := by
  rw [exec, execEbFlush, hopen]

/-- Under either answer of the sink a flush of an Open event sends its record. -/
theorem exec_ebFlush_sends {s : State} (hopen : s.eb.isOpen = true) (hsink : s.sink.attached = true) :
    ∃ t, exec .ebFlush s = .next t ∧ t.sink.trace = s.sink.trace ++ [eventRecord s] := by
  rw [exec_ebFlush_of_open hopen]
  cases hanswer : s.sink.answer with
  | ok => exact ⟨_, flushThen_of_ok hsink hanswer, rfl⟩
  | fail => exact ⟨_, flushThen_of_fail hsink hanswer, rfl⟩

theorem exec_ebWrite_eq (s : State) : exec .ebWrite s = sinkWrite s.eb.recIn s okEb := rfl

theorem exec_ebSetsid_eq (sid : BitVec 32) (s : State) :
    exec (.ebSetsid sid) s = .next (okEb (s.withEb { s.eb with sid := sid })) := rfl

end Sys2Proof.Machine
end

section
/-! PROOFS. The statements of EB (42_eventbuilder.md R131 to R138). -/

namespace Sys2Proof.Machine

/-! ## The commands -/

/-- Settles O29: the arm that the time selects, and then the room left or the sink's answer. -/
theorem ebAddFollowsItsRule : Obligations.EbAddFollowsItsRule := by
  unfold Obligations.EbAddFollowsItsRule
  intro dir chan time tot s e room full atCapacity flushed
  have hroom : room → Cap.full s.cfg.ebCap s.eb.entries.length = false := (Cap.full_eq_false_iff _ _).2
  have hfull : full → Cap.full s.cfg.ebCap s.eb.entries.length = true := (Cap.full_eq_true_iff _ _).2
  have hentry : entryOfHit dir chan time tot = e := entryOfHit_eq dir chan time tot
  refine ⟨decodeCommand_ebAdd dir chan time tot, fun hopen hr => ?opens, fun hopen hf => ?emptyFull,
    fun hopen htime => ?early, fun hopen hstart hwindow hr => ?appends, fun hopen hstart hwindow hf => ?openFull,
    fun hopen hstart hwindow hsink hok => ?flushes, fun hopen hstart hwindow hsink hfail => ?sinkFail⟩
  case opens =>
    rw [exec_ebAdd_of_empty hopen, openEvent_of_room (hroom hr), hentry]
    exact ⟨_, rfl⟩
  case emptyFull =>
    rw [exec_ebAdd_of_empty hopen, openEvent_of_full (hfull hf)]
    rfl
  case early =>
    rw [exec_ebAdd_of_early hopen htime]
    rfl
  case appends =>
    rw [exec_ebAdd_of_inside hopen hstart hwindow, appendEntry_of_room (hroom hr), hentry]
    exact ⟨_, rfl⟩
  case openFull =>
    rw [exec_ebAdd_of_inside hopen hstart hwindow, appendEntry_of_full (hfull hf)]
    rfl
  case flushes =>
    rw [exec_ebAdd_of_outside hopen hstart hwindow, flushThen_of_ok hsink hok, hentry]
    exact ⟨_, rfl⟩
  case sinkFail =>
    rw [exec_ebAdd_of_outside hopen hstart hwindow, flushThen_of_fail hsink hfail]
    rfl

/-- Settles O30: the policy decides in Empty, and the marker is appended like any entry. -/
theorem ebFbFollowsItsRule : Obligations.EbFbFollowsItsRule := by
  unfold Obligations.EbFbFollowsItsRule
  intro frame s
  refine ⟨decodeCommand_ebFb frame, fun hopen hpolicy => ?dropped, fun hkept hcap => ?room, fun hkept hcap => ?full⟩
  case dropped => exact ⟨_, exec_ebFb_of_drop hopen hpolicy⟩
  case room =>
    rw [exec_ebFb_of_kept hkept, appendEntry_of_room ((Cap.full_eq_false_iff _ _).2 hcap)]
    exact ⟨_, rfl⟩
  case full =>
    rw [exec_ebFb_of_kept hkept, appendEntry_of_full ((Cap.full_eq_true_iff _ _).2 hcap)]
    rfl

/-- Settles O31: Empty, and the two answers of the sink. -/
theorem ebFlushFollowsItsRule : Obligations.EbFlushFollowsItsRule := by
  unfold Obligations.EbFlushFollowsItsRule
  intro s flushed
  refine ⟨decodeCommand_ebFlush, fun hopen => ⟨_, exec_ebFlush_of_empty hopen⟩, fun hopen hsink hok => ?taken,
    fun hopen hsink hfail => ?failed⟩
  case taken =>
    rw [exec_ebFlush_of_open hopen, flushThen_of_ok hsink hok]
    exact ⟨_, rfl⟩
  case failed =>
    rw [exec_ebFlush_of_open hopen, flushThen_of_fail hsink hfail]
    rfl

/-- Settles O32: one call of the sink with the record on the port, and its two answers. -/
theorem ebWriteFollowsItsRule : Obligations.EbWriteFollowsItsRule := by
  unfold Obligations.EbWriteFollowsItsRule
  intro s
  refine ⟨decodeCommand_ebWrite, fun hsink hok => ?taken, fun hsink hfail => ?failed⟩
  case taken =>
    rw [exec_ebWrite_eq, sinkWrite_of_ok hsink hok]
    exact ⟨_, rfl⟩
  case failed =>
    rw [exec_ebWrite_eq, sinkWrite_of_fail hsink hfail]
    rfl

/-- Settles O33: the record of a flush is read from the state that EB.SETSID leaves. -/
theorem ebSetsidFollowsItsRule : Obligations.EbSetsidFollowsItsRule := by
  unfold Obligations.EbSetsidFollowsItsRule
  intro sid s
  refine ⟨decodeCommand_ebSetsid sid, _, exec_ebSetsid_eq sid s, fun hopen hsink => ?_⟩
  have hopen' : (okEb (s.withEb { s.eb with sid := sid })).eb.isOpen = true := hopen
  obtain ⟨u, hflush, htrace⟩ := exec_ebFlush_sends hopen' hsink
  exact ⟨_, u, _, exec_ebSetsid_eq sid s, hflush, htrace, rfl⟩

/-! ## The window -/

section
variable {dir : Dir} {chan : BitVec 15} {time : BitVec 64} {tot : BitVec 32} {s : State}

theorem exec_ebAdd_opens (hopen : s.eb.isOpen = false)
    (hroom : Cap.full s.cfg.ebCap s.eb.entries.length = false) :
    ∃ t, exec (.ebAdd dir chan time tot) s = .next t ∧ t.cfg = s.cfg ∧ t.sink = s.sink ∧ t.eb.dt = s.eb.dt ∧
      t.eb.isOpen = true ∧ t.eb.startTime = time ∧ t.eb.entries = s.eb.entries ++ [entryOfHit dir chan time tot] := by
  rw [exec_ebAdd_of_empty hopen, openEvent_of_room hroom]
  exact ⟨_, rfl, rfl, rfl, rfl, rfl, rfl, rfl⟩

theorem exec_ebAdd_joins (hopen : s.eb.isOpen = true) (hstart : s.eb.startTime.toNat ≤ time.toNat)
    (hwindow : time.toNat - s.eb.startTime.toNat ≤ s.eb.dt.toNat)
    (hroom : Cap.full s.cfg.ebCap s.eb.entries.length = false) :
    ∃ t, exec (.ebAdd dir chan time tot) s = .next t ∧ t.sink = s.sink ∧ t.eb.dt = s.eb.dt ∧
      t.eb.isOpen = true ∧ t.eb.startTime = s.eb.startTime ∧
      t.eb.entries = s.eb.entries ++ [entryOfHit dir chan time tot] := by
  rw [exec_ebAdd_of_inside hopen hstart hwindow, appendEntry_of_room hroom]
  exact ⟨_, rfl, rfl, rfl, hopen, rfl, rfl⟩

theorem exec_ebAdd_sends_and_opens (hopen : s.eb.isOpen = true) (hstart : s.eb.startTime.toNat ≤ time.toNat)
    (hwindow : s.eb.dt.toNat < time.toNat - s.eb.startTime.toNat)
    (hsink : s.sink.attached = true) (hok : s.sink.answer = .ok) :
    ∃ t, exec (.ebAdd dir chan time tot) s = .next t ∧ t.sink.trace = s.sink.trace ++ [eventRecord s] ∧
      t.eb.isOpen = true ∧ t.eb.startTime = time ∧ t.eb.entries = [entryOfHit dir chan time tot] := by
  rw [exec_ebAdd_of_outside hopen hstart hwindow, flushThen_of_ok hsink hok]
  exact ⟨_, rfl, rfl, rfl, rfl, rfl⟩

end

/-- Settles O35: the first hit opens the event, the second is inside its window (the difference is DT), and the third is
outside it (the difference is DT + 1). By the premise on `t0` neither sum wraps. -/
theorem windowIsInclusive : Obligations.WindowIsInclusive := by
  unfold Obligations.WindowIsInclusive
  intro s t0 d0 d1 d2 c0 c1 c2 x0 x1 x2 hopen hempty hcap hsink hok hfits
  have hroom {n : Nat} (hn : n < 2) : Cap.full s.cfg.ebCap n = false :=
    (Cap.full_eq_false_iff _ _).2 fun k hk => hn.trans_le (hcap k hk)
  have hlast : (t0 + s.eb.dt).toNat = t0.toNat + s.eb.dt.toNat := BitVec.toNat_add_of_lt (by omega)
  have hnext : (t0 + s.eb.dt + 1).toNat = t0.toNat + s.eb.dt.toNat + 1 := by
    rw [BitVec.toNat_add_of_lt (by rw [hlast]; exact hfits), hlast]
    rfl
  obtain ⟨a, hexecA, hcfgA, hsinkA, hdtA, hopenA, hstartA, hentriesA⟩ :=
    exec_ebAdd_opens (dir := d0) (chan := c0) (time := t0) (tot := x0) hopen (by rw [hempty]; exact hroom two_pos)
  rw [hempty] at hentriesA
  obtain ⟨b, hexecB, hsinkB, hdtB, hopenB, hstartB, hentriesB⟩ :=
    exec_ebAdd_joins (dir := d1) (chan := c1) (time := t0 + s.eb.dt) (tot := x1) hopenA
      (by rw [hstartA]; omega) (by rw [hstartA, hdtA]; omega)
      (by rw [hcfgA, hentriesA]; exact hroom one_lt_two)
  rw [hsinkA] at hsinkB
  rw [hstartA] at hstartB
  rw [hentriesA] at hentriesB
  obtain ⟨c, hexecC, htraceC, hopenC, hstartC, hentriesC⟩ :=
    exec_ebAdd_sends_and_opens (dir := d2) (chan := c2) (time := t0 + s.eb.dt + 1) (tot := x2) hopenB
      (by rw [hstartB]; omega) (by rw [hstartB, hdtB, hdtA]; omega) (by rw [hsinkB, hsink]) (by rw [hsinkB, hok])
  rw [hsinkB] at htraceC
  exact ⟨a, b, c, hexecA, hexecB, hexecC, hopenB, congrArg SinkPort.trace hsinkB, hentriesB, hopenC, hstartC, hentriesC,
    eventRecord b, htraceC, congrArg some hstartB, congrArg payloadOf hentriesB⟩

/-- Settles O36: EB.FB keeps Empty Empty and Open Open, and a flush in Empty is a no-op. -/
theorem frameBoundaryDoesNotTrigger : Obligations.FrameBoundaryDoesNotTrigger := by
  unfold Obligations.FrameBoundaryDoesNotTrigger
  intro frame s
  obtain ⟨t, hexec, hsink, hkeeps, hstart⟩ := exec_ebFb_keeps frame s
  constructor
  · intro hopen
    exact ⟨t, okEb t, hexec, exec_ebFlush_of_empty (hkeeps.trans hopen), hsink, hsink⟩
  · intro hopen
    exact ⟨t, hexec, hsink, hkeeps.trans hopen, hstart⟩

end Sys2Proof.Machine
end

section
/-! PROOFS. The order in which a command's faults are raised (60_exceptions.md R167). -/

namespace Sys2Proof.Machine

/-! ## A refused command -/

theorem decodePresented_of_error {u : UnitId} {d : BitVec 128} {e : Reject} (h : decodeCommand u d = .error e) (s : State) :
    decodePresented u d s = .done (illegalOp u s) := by
  rw [decodePresented, h]

theorem step_of_deliver_done {s t : State} {e : HostEvent} {rest : List HostEvent} (hhost : s.host = e :: rest)
    (h : deliver e (s.withHost rest) = .done t) : step s = .next t := by
  simp only [step, fetch, hhost, h]

/-- At TO's port a refused command raises `ILLEGAL_OP`, whatever its operands and TO's state are. -/
theorem step_of_refused_tord {s : State} {d : BitVec 128} {rest : List HostEvent} {e : Reject}
    (hhost : s.host = .tordCommand d :: rest) (h : decodeCommand .tord d = .error e) :
    step s = .next (raiseTord .illegalOp .none (presentTord d (s.withHost rest))) :=
  step_of_deliver_done hhost (decodePresented_of_error h _)

/-- At EB's port a refused command raises `ILLEGAL_OP`, whatever its operands, EB's state and the sink's answer are. -/
theorem step_of_refused_eb {s : State} {d : BitVec 128} {r : Record} {a : Answer} {rest : List HostEvent} {e : Reject}
    (hhost : s.host = .ebCommand d r a :: rest) (h : decodeCommand .eb d = .error e) :
    step s = .next (raiseEb .illegalOp .none (presentEb d r a (s.withHost rest))) :=
  step_of_deliver_done hhost (decodePresented_of_error h _)

/-! ## A command that runs -/

section
variable {dir : Dir} {chan : BitVec 15} {time : BitVec 64} {tot : BitVec 32} {s : State}

/-- The range of the channel is tested first: `CHAN_RANGE`, with TO at its capacity or below it. -/
theorem exec_toAdd_of_chan_ge (hc : s.tord.nchan.val ≤ chan.toNat) :
    exec (.toAdd dir chan time tot) s = .next (raiseTord .chanRange (.chan chan) s) := by
  rw [exec_toAdd_eq, addHit_of_chan_ge hc]

/-- Inside the window a full buffer raises `CAPACITY`. -/
theorem exec_ebAdd_inside_full (hopen : s.eb.isOpen = true) (hstart : s.eb.startTime.toNat ≤ time.toNat)
    (hwindow : time.toNat - s.eb.startTime.toNat ≤ s.eb.dt.toNat)
    (hfull : Cap.full s.cfg.ebCap s.eb.entries.length = true) :
    exec (.ebAdd dir chan time tot) s = .next (raiseEb .capacity (.count s.eb.entries.length) s) := by
  rw [exec_ebAdd_of_inside hopen hstart hwindow, appendEntry_of_full hfull]

/-- Outside the window the event is gone before the hit is kept, so there is no capacity to exceed: the status is that of the
sink's answer. -/
theorem exec_ebAdd_outside_status (hopen : s.eb.isOpen = true) (hstart : s.eb.startTime.toNat ≤ time.toNat)
    (hwindow : s.eb.dt.toNat < time.toNat - s.eb.startTime.toNat) (hsink : s.sink.attached = true) :
    ∃ t, exec (.ebAdd dir chan time tot) s = .next t ∧ (t.eb.status = 0 ∨ t.eb.status = 3) := by
  rw [exec_ebAdd_of_outside hopen hstart hwindow]
  cases hanswer : s.sink.answer with
  | ok => exact ⟨_, flushThen_of_ok hsink hanswer, .inl rfl⟩
  | fail => exact ⟨_, flushThen_of_fail hsink hanswer, .inr rfl⟩

end

/-- Settles O52: the decoder refuses before the operation runs; then `TO.ADD` tests the channel and `EB.ADD` the time, each
before the room. -/
theorem faultPriority : Obligations.FaultPriority := by
  unfold Obligations.FaultPriority
  refine ⟨fun s d r a rest e hhost hdec => ?illegalEb, fun s d rest e hhost hdec => ?illegalTord,
    fun dir chan time tot s => ⟨fun hc => ?range, fun hopen htime => ?early, fun hopen hstart hwindow hcap => ?full,
      fun hopen hstart hwindow hsink => ?outside⟩⟩
  case illegalEb => exact ⟨_, step_of_refused_eb hhost hdec, rfl, rfl, rfl⟩
  case illegalTord => exact ⟨_, step_of_refused_tord hhost hdec, rfl, rfl⟩
  case range => exact ⟨_, exec_toAdd_of_chan_ge hc, rfl⟩
  case early => exact ⟨_, exec_ebAdd_of_early hopen (BitVec.lt_def.1 htime), rfl, rfl⟩
  case full =>
    rw [BitVec.le_def, BitVec.toNat_sub_of_le hstart] at hwindow
    exact ⟨_, exec_ebAdd_inside_full hopen (BitVec.le_def.1 hstart) hwindow ((Cap.full_eq_true_iff _ _).2 hcap), rfl, rfl⟩
  case outside =>
    rw [BitVec.lt_def, BitVec.toNat_sub_of_le hstart] at hwindow
    exact exec_ebAdd_outside_status hopen (BitVec.le_def.1 hstart) hwindow hsink

end Sys2Proof.Machine
end

section
/-! PROOFS. Decoding and encoding as inverses (30_encoding.md R60, R76, R78): an accepted descriptor has no bit that its
operands do not fix, so the two round trips of the commands follow from one another. -/

namespace Sys2Proof

/-! ## A field put back where it was read -/

theorem place_slice {n : Nat} (w : BitVec n) (lo len : Nat) :
    place n (slice w lo len) lo = w &&& place n (BitVec.allOnes len) lo := by
  apply BitVec.eq_of_getLsbD_eq
  intro i hi
  rw [BitVec.getLsbD_and, getLsbD_place, getLsbD_place, getLsbD_slice, BitVec.getLsbD_allOnes]
  by_cases hlo : lo ≤ i
  · simp [hi, hlo, Nat.add_sub_cancel' hlo, Bool.and_comm]
  · simp [hlo]

/-- Two masks keep together what either of them keeps. -/
theorem and_or_and {n : Nat} (w m m' : BitVec n) : w &&& m ||| w &&& m' = w &&& (m ||| m') :=
  BitVec.and_or_distrib_left.symm

/-! ## The descriptors of a row -/

section
variable {op : Op} {d : BitVec 128}

/-- A descriptor is its row's match and its operands, where the row's mask and the operand's field make up all bits. -/
theorem pattern_or_operand (hrow : d &&& op.mask = op.pattern) {len : Nat}
    (hmask : op.mask ||| place 128 (BitVec.allOnes len) 0 = BitVec.allOnes 128) :
    op.pattern ||| place 128 (slice d 0 len) 0 = d := by
  rw [← hrow, place_slice, and_or_and, hmask, BitVec.and_allOnes]

/-- The same for the rows whose mask has no zero bit. -/
theorem pattern_eq (hrow : d &&& op.mask = op.pattern) (hmask : op.mask = BitVec.allOnes 128) : op.pattern = d := by
  rw [← hrow, hmask, BitVec.and_allOnes]

/-- The same for the rows with the operands of a hit. -/
theorem hitDescriptor_slices (hrow : d &&& op.mask = op.pattern)
    (hmask : op.mask = BitVec.allOnes 4 ++ 0#1 ++ BitVec.allOnes 12 ++ 0#15 ++ 0#32 ++ 0#64) :
    hitDescriptor op (Dir.ofBit (slice d 123 1)) (slice d 96 15) (slice d 0 64) (slice d 64 32) = d := by
  have hbits : op.mask ||| place 128 (BitVec.allOnes 1) 123 ||| place 128 (BitVec.allOnes 15) 96 |||
      place 128 (BitVec.allOnes 32) 64 ||| place 128 (BitVec.allOnes 64) 0 = BitVec.allOnes 128 := by
    rw [hmask]
    decide
  rw [hitDescriptor, dir_bit_ofBit, ← hrow]
  simp only [place_slice, and_or_and]
  rw [hbits, BitVec.and_allOnes]

end

/-! ## Encode after decode -/

/-- On the row of `WC.ENC` the operand is the datum of the register that stands in the descriptor. -/
theorem operandsOf_wcEnc_eq_ok_iff (d : BitVec 128) (i : Instr) :
    operandsOf .wcEnc d = .ok i ↔ ∃ x, datumOfRegister (slice d 0 67) = some x ∧ i = .wcEnc x := by
  cases hx : datumOfRegister (slice d 0 67) with
  | none => simp [operandsOf, hx]
  | some x => simp [operandsOf, hx, eq_comm]

theorem encode_of_row (t : Tags) (hi : BitVec 20 → BitVec 38) {op : Op} {d : BitVec 128} {i : Instr}
    (hrow : d &&& op.mask = op.pattern) (hi' : operandsOf op d = .ok i) : encode t hi i = .command op.unit d := by
  cases op with
  | wcEnc =>
    obtain ⟨x, hx, rfl⟩ := (operandsOf_wcEnc_eq_ok_iff d i).1 hi'
    rw [encode, register_of_datumOfRegister hx, pattern_or_operand hrow (by decide)]
    rfl
  | toAdd | ebAdd =>
    cases hi'
    rw [encode, hitDescriptor_slices hrow (by decide)]
    rfl
  | wcDec | ebFb | ebSetsid =>
    cases hi'
    rw [encode, pattern_or_operand hrow (by decide)]
    rfl
  | toMerge | ebFlush | ebWrite =>
    cases hi'
    rw [encode, pattern_eq hrow (by decide)]
    rfl

theorem encode_of_decodeCommand (t : Tags) (hi : BitVec 20 → BitVec 38) {u : UnitId} {d : BitVec 128} {i : Instr}
    (h : decodeCommand u d = .ok i) : encode t hi i = .command u d := by
  obtain ⟨op, rfl, hrow, hoperands⟩ := exists_row_of_decodeCommand h
  exact encode_of_row t hi hrow hoperands

/-- Settles O19: the row's mask and the operands' fields make up all 128 bits. -/
theorem encodeOfDecode : Obligations.EncodeOfDecode := by
  unfold Obligations.EncodeOfDecode
  exact fun t hi u d i => encode_of_decodeCommand t hi

/-! ## Decode after encode -/

/-- What some descriptor decodes to is decoded from its encoding, since that is the descriptor. -/
theorem decode_encode_of_command (t : Tags) (hi : BitVec 20 → BitVec 38) {u : UnitId} {d : BitVec 128} {i : Instr}
    (h : decodeCommand u d = .ok i) : decode t (encode t hi i) = .ok i := by
  rw [encode_of_decodeCommand t hi h]
  exact h

theorem decode_encode_of_dataWord {t : Tags} (hd : t.distinct) (hi : BitVec 20 → BitVec 38) {x : Datum}
    (hvalid : x.valid t = true) : decode t (.dataWord (wordOfDatum t hi x)) = .ok x.toInstr := by
  rw [decode, decodeWord, datumOfWord_wordOfDatum hd hi x hvalid]

theorem decodeCommand_wcEnc_register (x : Datum) : decodeCommand .wc (0x1#4 ++ 0#57 ++ x.register) = .ok (.wcEnc x) := by
  rw [decodeCommand_wcEnc]
  refine operandsOf_wcEnc ?_
  rw [slice_append_bottom, datumOfRegister_register]

/-- A well-formed instruction is read back from its bits. -/
theorem decode_encode {t : Tags} (hd : t.distinct) (hi : BitVec 20 → BitVec 38) {i : Instr}
    (hwf : i.wellFormed t = true) : decode t (encode t hi i) = .ok i := by
  cases i with
  | wcDec w => exact decode_encode_of_command t hi (decodeCommand_wcDec w)
  | wcEnc x => exact decode_encode_of_command t hi (decodeCommand_wcEnc_register x)
  | toAdd dir chan time tot => exact decode_encode_of_command t hi (decodeCommand_toAdd dir chan time tot)
  | toMerge => exact decode_encode_of_command t hi decodeCommand_toMerge
  | ebAdd dir chan time tot => exact decode_encode_of_command t hi (decodeCommand_ebAdd dir chan time tot)
  | ebFb frame => exact decode_encode_of_command t hi (decodeCommand_ebFb frame)
  | ebFlush => exact decode_encode_of_command t hi decodeCommand_ebFlush
  | ebWrite => exact decode_encode_of_command t hi decodeCommand_ebWrite
  | ebSetsid sid => exact decode_encode_of_command t hi (decodeCommand_ebSetsid sid)
  | frameStart f o => exact decode_encode_of_dataWord (x := .frameStart f o) hd hi rfl
  | frameSize n => exact decode_encode_of_dataWord (x := .frameSize n) hd hi rfl
  | edgeLeading c x tm => exact decode_encode_of_dataWord (x := .edge .leading c x tm) hd hi rfl
  | edgeTrailing c x tm => exact decode_encode_of_dataWord (x := .edge .trailing c x tm) hd hi rfl
  | unrecognized w => exact decode_encode_of_dataWord (x := .unrecognized w) hd hi hwf

/-- Settles O18: each command is what its layout decodes to, each data word is the encoding of a valid datum. -/
theorem decodeOfEncode : Obligations.DecodeOfEncode := by
  unfold Obligations.DecodeOfEncode
  exact fun t hi i hd hwf => decode_encode hd hi hwf

/-- Settles O20, by evaluation of the decoder: seven descriptors and two data words. -/
theorem sampleWordsDecode : Obligations.SampleWordsDecode := by
  unfold Obligations.SampleWordsDecode
  decide

end Sys2Proof
end

section
/-! PROOFS. The words of a byte stream (20_memory.md R41 to R43): their assembly in either byte order, which takes apart what
R47 puts together. -/

namespace Sys2Proof.Machine

/-! ## Eight bytes and their word -/

/-- The word of eight bytes, that of the lowest bits first. -/
def joinBytes (b : Nat → Byte) : BitVec 64 :=
  place 64 (b 0) 0 ||| place 64 (b 1) 8 ||| place 64 (b 2) 16 ||| place 64 (b 3) 24 ||| place 64 (b 4) 32 |||
    place 64 (b 5) 40 ||| place 64 (b 6) 48 ||| place 64 (b 7) 56

theorem place_shiftLeft {n k : Nat} (f : BitVec k) (lo m : Nat) : place n f lo <<< m = place n f (lo + m) :=
  (BitVec.shiftLeft_add _ lo m).symm

theorem or_eight_reverse {n : Nat} (a b c d e f g h : BitVec n) :
    a ||| b ||| c ||| d ||| e ||| f ||| g ||| h = h ||| g ||| f ||| e ||| d ||| c ||| b ||| a := by
  ac_rfl

/-- Each byte is shifted once for every byte assembled after it. -/
theorem wordOfBytes_little (b : Nat → Byte) : wordOfBytes .little ((List.range 8).map b) = joinBytes b := by
  have hrange : List.range 8 = [0, 1, 2, 3, 4, 5, 6, 7] := by decide
  simp only [hrange, List.map_cons, List.map_nil, wordOfBytes, List.foldr_cons, List.foldr_nil, joinBytes, ← place_zero,
    BitVec.ofNat_eq_ofNat, BitVec.zero_shiftLeft, BitVec.zero_or, BitVec.shiftLeft_or_distrib, place_shiftLeft,
    Nat.reduceAdd]
  exact or_eight_reverse ..

/-- `big` is `little` read from the far end. -/
theorem wordOfBytes_big (bs : List Byte) : wordOfBytes .big bs = wordOfBytes .little bs.reverse := by
  simp only [wordOfBytes, List.foldr_reverse]

theorem wordOfBytes_big_map (b : Nat → Byte) :
    wordOfBytes .big ((List.range 8).map b) = joinBytes fun j => b (7 - j) := by
  have hrange : ((List.range 8).map b).reverse = (List.range 8).map fun j => b (7 - j) := by
    rw [← List.map_reverse]
    rfl
  rw [wordOfBytes_big, hrange, wordOfBytes_little]

/-- The eight fields of 8 bits make up all 64 bits. -/
theorem joinBytes_slices (w : BitVec 64) : (joinBytes fun j => slice w (8 * j) 8) = w := by
  have hmask : place 64 (BitVec.allOnes 8) 0 ||| place 64 (BitVec.allOnes 8) 8 ||| place 64 (BitVec.allOnes 8) 16 |||
      place 64 (BitVec.allOnes 8) 24 ||| place 64 (BitVec.allOnes 8) 32 ||| place 64 (BitVec.allOnes 8) 40 |||
      place 64 (BitVec.allOnes 8) 48 ||| place 64 (BitVec.allOnes 8) 56 = BitVec.allOnes 64 := by decide
  simp only [joinBytes, Nat.reduceMul, place_slice, and_or_and]
  rw [hmask, BitVec.and_allOnes]

/-- The bytes of a 64-bit value assemble to that value, in either order. -/
theorem wordOfBytes_valueBytes (order : ByteOrder) (w : BitVec 64) : wordOfBytes order (valueBytes order 8 w) = w := by
  have hlittle : wordOfBytes .little (valueBytes .little 8 w) = w :=
    (wordOfBytes_little _).trans (joinBytes_slices w)
  cases order with
  | little => exact hlittle
  | big => rw [valueBytes_big, wordOfBytes_big, List.reverse_reverse, hlittle]

/-! ## The word at an offset -/

theorem take_drop_eq_map_getD {bytes : List Byte} {offset n : Nat} (h : offset + n ≤ bytes.length) :
    (bytes.drop offset).take n = (List.range n).map fun j => bytes.getD (offset + j) 0 := by
  apply List.ext_getElem
  · simp
    omega
  · intro j hj _
    have hn : j < n := by
      simp at hj
      omega
    simp [show offset + j < bytes.length by omega]

theorem wordAt_of_le {order : ByteOrder} {bytes : List Byte} {offset : Nat} (h : offset + 8 ≤ bytes.length) :
    wordAt order bytes offset = some (wordOfBytes order ((List.range 8).map fun j => bytes.getD (offset + j) 0)) := by
  rw [wordAt, if_pos h, take_drop_eq_map_getD h]

theorem wordAt_of_lt {order : ByteOrder} {bytes : List Byte} {offset : Nat} (h : bytes.length < offset + 8) :
    wordAt order bytes offset = none := by
  rw [wordAt, if_neg h.not_ge]

theorem wordAt_valueBytes_append (order : ByteOrder) (w : BitVec 64) (more : List Byte) :
    wordAt order (valueBytes order 8 w ++ more) 0 = some w := by
  have hfits : 0 + 8 ≤ (valueBytes order 8 w ++ more).length := by simp
  have htake : ((valueBytes order 8 w ++ more).drop 0).take 8 = valueBytes order 8 w :=
    List.take_left' (valueBytes_length order 8 w)
  rw [wordAt, if_pos hfits, htake, wordOfBytes_valueBytes]

end Sys2Proof.Machine
end

section
/-! PROOFS. What a step does with each input (10_state.md R20 to R22, 20_memory.md R41, R42, 60_exceptions.md R165, R168,
70_reset_and_hazards.md R190). -/

namespace Sys2Proof.Machine

/-! ## Delivery, one rule for each outcome -/

theorem step_of_deliver_run {s t : State} {e : HostEvent} {rest : List HostEvent} {i : Instr} (hhost : s.host = e :: rest)
    (h : deliver e (s.withHost rest) = .run i t) : step s = exec i t := by
  simp only [step, fetch, hhost, h]

theorem step_of_no_input {s : State} (hhost : s.host = []) : step s = .next s := by
  simp only [step, fetch, hhost]

theorem decodePresented_of_ok {u : UnitId} {d : BitVec 128} {i : Instr} (h : decodeCommand u d = .ok i) (s : State) :
    decodePresented u d s = .run i s := by
  rw [decodePresented, h]

theorem fetchWord_of_some {s : State} {w : BitVec 64} (h : wordAt s.cfg.byteOrder s.inp.bytes s.inp.offset = some w) :
    fetchWord s = .run (decodeWord s.cfg.tags w) (presentWord w s) := by
  rw [fetchWord, h]

theorem fetchWord_of_none {s : State} (h : wordAt s.cfg.byteOrder s.inp.bytes s.inp.offset = none) :
    fetchWord s = .done s := by
  rw [fetchWord, h]

section
variable {s : State} {d : BitVec 128} {rest : List HostEvent} {i : Instr}

theorem step_of_wcCommand (hhost : s.host = .wcCommand d :: rest) (h : decodeCommand .wc d = .ok i) :
    step s = exec i (presentWc d (s.withHost rest)) :=
  step_of_deliver_run hhost (decodePresented_of_ok h _)

theorem step_of_tordCommand (hhost : s.host = .tordCommand d :: rest) (h : decodeCommand .tord d = .ok i) :
    step s = exec i (presentTord d (s.withHost rest)) :=
  step_of_deliver_run hhost (decodePresented_of_ok h _)

theorem step_of_ebCommand {r : Record} {a : Answer} (hhost : s.host = .ebCommand d r a :: rest)
    (h : decodeCommand .eb d = .ok i) : step s = exec i (presentEb d r a (s.withHost rest)) :=
  step_of_deliver_run hhost (decodePresented_of_ok h _)

theorem step_of_nextWord {w : BitVec 64} (hhost : s.host = .nextWord :: rest)
    (h : wordAt s.cfg.byteOrder s.inp.bytes s.inp.offset = some w) :
    step s = exec (decodeWord s.cfg.tags w) (presentWord w (s.withHost rest)) :=
  step_of_deliver_run hhost (fetchWord_of_some h)

theorem step_of_streamEnd (hhost : s.host = .nextWord :: rest)
    (h : wordAt s.cfg.byteOrder s.inp.bytes s.inp.offset = none) : step s = .next (s.withHost rest) :=
  step_of_deliver_done hhost (fetchWord_of_none (s := s.withHost rest) h)

end

/-! ## Data words -/

/-- A data word answers its datum, whatever its layout. -/
theorem exec_toInstr (x : Datum) (s : State) : exec x.toInstr s = .next (answerDatum x s) := by
  cases x with
  | edge dir c x tm => cases dir <;> rfl
  | frameStart | frameSize | unrecognized => rfl

/-- A word of the stream is the datum that `WC.DEC` of it answers. -/
theorem exec_decodeWord (w : BitVec 64) (s : State) : exec (decodeWord s.cfg.tags w) s = exec (.wcDec w) s :=
  exec_toInstr (datumOfWord s.cfg.tags w) s

/-- Settles O14: the 8 bytes at the offset, joined in the byte order of the parameters. -/
theorem streamWordIsAssembled : Obligations.StreamWordIsAssembled := by
  unfold Obligations.StreamWordIsAssembled
  intro s k rest hhost hoffset hfits b w
  have hw : wordOfBytes s.cfg.byteOrder ((List.range 8).map fun j => s.inp.bytes.getD (8 * k + j) 0) = w := by
    cases horder : s.cfg.byteOrder with
    | little =>
      simp only [wordOfBytes_little, joinBytes, place_zero, w, b, horder]
      rfl
    | big =>
      simp only [wordOfBytes_big_map, joinBytes, place_zero, w, b, horder]
      exact or_eight_reverse ..
  have hword : wordAt s.cfg.byteOrder s.inp.bytes s.inp.offset = some w := by rw [hoffset, wordAt_of_le hfits, hw]
  rw [step_of_nextWord hhost hword, ← hoffset]
  exact ⟨_, rfl⟩

/-- Settles O15: the assembler asks for all 8 bytes before it presents a word. -/
theorem partialWordEndsTheStream : Obligations.PartialWordEndsTheStream := by
  unfold Obligations.PartialWordEndsTheStream
  intro s k rest hhost hoffset
  rw [← hoffset]
  refine ⟨fun hshort => step_of_streamEnd hhost (wordAt_of_lt hshort), fun hfits => ?_⟩
  exact ⟨_, _, wordAt_of_le hfits, rfl,
    (step_of_nextWord hhost (wordAt_of_le hfits)).trans (exec_decodeWord _ (presentWord _ (s.withHost rest)))⟩

/-- Settles O12: each layout is the instruction form of its datum. -/
theorem dataWordsAnswerTheirDatum : Obligations.DataWordsAnswerTheirDatum := by
  unfold Obligations.DataWordsAnswerTheirDatum
  intro f o n c x tm w s
  exact ⟨exec_toInstr (.frameStart f o) s, exec_toInstr (.frameSize n) s, exec_toInstr (.edge .leading c x tm) s,
    exec_toInstr (.edge .trailing c x tm) s, exec_toInstr (.unrecognized w) s⟩

/-- Settles O13: both answer the datum of the word, and neither reads WC's state. -/
theorem streamWordsAreDecodedOneByOne : Obligations.StreamWordsAreDecodedOneByOne := by
  unfold Obligations.StreamWordsAreDecodedOneByOne
  exact exec_decodeWord

/-! ## Commands -/

/-- Settles O21: the port's register is written before the decoded instruction runs. -/
theorem stepRunsTheDecodedCommand : Obligations.StepRunsTheDecodedCommand := by
  unfold Obligations.StepRunsTheDecodedCommand
  intro s d r a rest i
  exact ⟨step_of_wcCommand, step_of_tordCommand, step_of_ebCommand⟩

theorem step_of_refused_wc {s : State} {d : BitVec 128} {rest : List HostEvent} {e : Reject}
    (hhost : s.host = .wcCommand d :: rest) (h : decodeCommand .wc d = .error e) :
    step s = .next (illegalOp .wc (presentWc d (s.withHost rest))) :=
  step_of_deliver_done hhost (decodePresented_of_error h _)

/-- Settles O23: at each port the refusal writes the unit's status, its info and its sticky bit. -/
theorem illegalCommandChangesNothingElse : Obligations.IllegalCommandChangesNothingElse := by
  unfold Obligations.IllegalCommandChangesNothingElse
  intro s d r a rest e
  exact ⟨step_of_refused_wc, step_of_refused_tord, step_of_refused_eb⟩

/-- How a state that runs an instruction of unit `u` may differ from the state `s` in which the instruction's bits were placed:
in the command register of `u` alone. -/
structure PlacedFrom (s : State) (u : UnitId) (t : State) : Prop where
  cfg : t.cfg = s.cfg
  host : t.host = s.host
  sink : t.sink = s.sink
  wc : ∃ d, t.wc = if u = .wc then { s.wc with cmd := d } else s.wc
  tord : ∃ d, t.tord = if u = .tord then { s.tord with cmd := d } else s.tord
  eb : ∃ d, t.eb = if u = .eb then { s.eb with cmd := d } else s.eb

/-- A descriptor placed at a port is the next command of that port. -/
theorem step_placeCode_command {u : UnitId} {d : BitVec 128} {i : Instr} (s : State) (h : decodeCommand u d = .ok i) :
    ∃ t, step (placeCode (.command u d) s) = exec i t ∧ PlacedFrom s u t ∧ t.inp = s.inp := by
  cases u with
  | wc => exact ⟨_, step_of_wcCommand rfl h, ⟨rfl, rfl, rfl, ⟨d, rfl⟩, ⟨d, rfl⟩, ⟨d, rfl⟩⟩, rfl⟩
  | tord => exact ⟨_, step_of_tordCommand rfl h, ⟨rfl, rfl, rfl, ⟨d, rfl⟩, ⟨d, rfl⟩, ⟨d, rfl⟩⟩, rfl⟩
  | eb => exact ⟨_, step_of_ebCommand rfl h, ⟨rfl, rfl, rfl, ⟨d, rfl⟩, ⟨d, rfl⟩, ⟨d, rfl⟩⟩, rfl⟩

/-- A word placed is the whole stream, so its bytes are the next word. -/
theorem step_placeCode_dataWord (w : BitVec 64) (s : State) :
    ∃ t, step (placeCode (.dataWord w) s) = exec (decodeWord s.cfg.tags w) t ∧ PlacedFrom s .wc t := by
  have hword : wordAt s.cfg.byteOrder (valueBytes s.cfg.byteOrder 8 w) 0 = some w := by
    simpa using wordAt_valueBytes_append s.cfg.byteOrder w []
  exact ⟨_, step_of_nextWord (s := placeCode (.dataWord w) s) rfl hword, rfl, rfl, rfl, ⟨_, rfl⟩, ⟨0, rfl⟩, ⟨0, rfl⟩⟩

/-- Settles O22: what is placed is fetched and decodes to the instruction (the round trip of O18). -/
theorem placedInstructionRunsNext : Obligations.PlacedInstructionRunsNext := by
  unfold Obligations.PlacedInstructionRunsNext
  intro i s hd hwf
  have hdecode := decode_encode hd Config.fsizeHigh hwf
  cases hcode : encode s.cfg.tags Config.fsizeHigh i with
  | command u d =>
    rw [hcode] at hdecode
    obtain ⟨t, hstep, hplaced, hinp⟩ := step_placeCode_command s hdecode
    rw [← decodeCommand_unit u d i hdecode] at hplaced
    exact ⟨t, hstep, hplaced.cfg, hplaced.host, hplaced.sink, hplaced.wc, hplaced.tord, hplaced.eb, fun _ _ _ => hinp⟩
  | dataWord w =>
    obtain ⟨t, hstep, hplaced⟩ := step_placeCode_dataWord w s
    rw [hcode] at hdecode
    obtain rfl : decodeWord s.cfg.tags w = i := Except.ok.inj hdecode
    rw [← decodeWord_unit s.cfg.tags w] at hplaced
    exact ⟨t, hstep, hplaced.cfg, hplaced.host, hplaced.sink, hplaced.wc, hplaced.tord, hplaced.eb, nofun⟩

/-! ## Resets, and no input -/

/-- Settles O47: the values of R36 at the straps given, and the frame of the unit's reset. -/
theorem unitResets : Obligations.UnitResets := by
  unfold Obligations.UnitResets
  intro s rest
  constructor
  · intro n hhost
    obtain ⟨hnchan, hbuckets, hcur, hfault⟩ := TordState.reset_values n
    exact ⟨resetTord n (s.withHost rest), step_of_deliver_done hhost rfl, hnchan, hbuckets, hcur, hfault,
      rfl, rfl, rfl, rfl, rfl, rfl⟩
  · intro dt sid a hhost
    obtain ⟨hopen, hentries, hsid, hdt, hfault⟩ := EbState.reset_values dt sid
    have hno : ∀ r ∈ (resetEb dt sid a (s.withHost rest)).sink.trace, r ∈ s.sink.trace := fun _ => nofun
    exact ⟨resetEb dt sid a (s.withHost rest), step_of_deliver_done hhost rfl, hopen, hentries, hsid, hdt, hfault,
      rfl, rfl, hno, rfl, rfl, rfl, rfl, rfl⟩

/-- Settles O48: nothing is fetched. -/
theorem nothingPendingNothingHappens : Obligations.NothingPendingNothingHappens := by
  unfold Obligations.NothingPendingNothingHappens
  exact fun s => step_of_no_input

end Sys2Proof.Machine
end

section
/-! PROOFS. What an instruction leaves alone, and what a step can do to each unit (20_memory.md R48, 60_exceptions.md R160,
R165, R168). -/

namespace Sys2Proof.Machine

/-! ## Instructions -/

/-- Settles O54: an instruction of a unit writes that unit's component, and one of EB the sink's too. -/
theorem unitsTouchTheirOwnStateOnly : Obligations.UnitsTouchTheirOwnStateOnly := by
  unfold Obligations.UnitsTouchTheirOwnStateOnly
  intro i s t h
  cases hu : i.unit with
  | wc =>
    obtain ⟨x, rfl, -⟩ := exec_wc i s t h hu
    exact ⟨rfl, rfl, rfl, fun hne => absurd rfl hne, fun _ => rfl, fun _ => ⟨rfl, rfl⟩⟩
  | tord =>
    obtain ⟨x, rfl, -⟩ := exec_tord i s t h hu
    exact ⟨rfl, rfl, rfl, fun _ => rfl, fun hne => absurd rfl hne, fun _ => ⟨rfl, rfl⟩⟩
  | eb =>
    obtain ⟨x, y, rfl, -⟩ := exec_eb i s t h hu
    exact ⟨rfl, rfl, rfl, fun _ => rfl, fun _ => rfl, fun hne => absurd rfl hne⟩

theorem exec_cfg {i : Instr} {s t : State} (h : exec i s = .next t) : t.cfg = s.cfg :=
  (unitsTouchTheirOwnStateOnly i s t h).1

/-- Settles O51: the ends of an instruction of each unit. -/
theorem statusAndStickyBitAgree : Obligations.StatusAndStickyBitAgree := by
  unfold Obligations.StatusAndStickyBitAgree
  intro i s t h
  refine ⟨fun hu => ?wc, fun hu => ?tord, fun hu => ?eb⟩
  case wc =>
    obtain ⟨x, rfl, hstatus⟩ := exec_wc i s t h hu
    exact hstatus
  case tord =>
    obtain ⟨x, rfl, -, hend⟩ := exec_tord i s t h hu
    exact hend
  case eb =>
    obtain ⟨x, y, rfl, -, -, -, -, hend⟩ := exec_eb i s t h hu
    exact hend

theorem TordEnd.sticky {x y : TordState} (h : TordEnd x y) : x.fault &&& y.fault = x.fault := by
  obtain ⟨-, hfault⟩ | ⟨-, hfault⟩ | ⟨-, hfault⟩ := h
  · rw [hfault, BitVec.and_self]
  all_goals rw [hfault, fault_and_or]

theorem EbEnd.sticky {x y : EbState} (h : EbEnd x y) : x.fault &&& y.fault = x.fault := by
  obtain ⟨-, hfault⟩ | ⟨-, hfault⟩ | ⟨-, hfault⟩ | ⟨-, hfault⟩ := h
  · rw [hfault, BitVec.and_self]
  all_goals rw [hfault, fault_and_or]

/-! ## Steps, as each unit sees them -/

/-- What an input does before its instruction runs: it writes command registers, the record port, the sink's answer and the
read offset, and neither the parameters nor what a command of another unit finds. -/
theorem Presents.keeps {e : HostEvent} {s t : State} {i : Instr} (h : Presents e s i t) :
    t.cfg = s.cfg ∧ t.sink.attached = s.sink.attached ∧ (i.unit ≠ .tord → t.tord = s.tord) ∧
      (i.unit ≠ .eb → t.eb = s.eb ∧ t.sink = s.sink) := by
  obtain ⟨d, rfl, -, rfl⟩ | ⟨d, rfl, hi, rfl⟩ | ⟨d, r, a, rfl, hi, rfl⟩ | ⟨w, rfl, -, -, -, rfl⟩ := h
  · exact ⟨rfl, rfl, fun _ => rfl, fun _ => ⟨rfl, rfl⟩⟩
  · exact ⟨rfl, rfl, fun hne => absurd (decodeCommand_unit _ _ _ hi) hne, fun _ => ⟨rfl, rfl⟩⟩
  · exact ⟨rfl, rfl, fun _ => rfl, fun hne => absurd (decodeCommand_unit _ _ _ hi) hne⟩
  · exact ⟨rfl, rfl, fun _ => rfl, fun _ => ⟨rfl, rfl⟩⟩

theorem Settles.cfg {e : HostEvent} {s t : State} (h : Settles e s t) : t.cfg = s.cfg := by
  obtain ⟨d, -, -, -, rfl⟩ | ⟨d, -, -, -, rfl⟩ | ⟨d, r, a, -, -, -, rfl⟩ | ⟨-, -, rfl⟩ | ⟨b, -, rfl⟩ | ⟨n, -, rfl⟩ |
    ⟨dt, sid, a, -, rfl⟩ := h <;> rfl

theorem step_cfg {s t : State} (h : step s = .next t) : t.cfg = s.cfg := by
  obtain ⟨-, hs⟩ | ⟨e, rest, -, ⟨i, u, hp, hs⟩ | ⟨u, hp, hs⟩⟩ := step_cases s <;> rw [hs] at h
  · cases h
    rfl
  · exact (exec_cfg h).trans hp.keeps.1
  · cases h
    exact Settles.cfg (s := s.withHost rest) hp

/-- What a step can do to TO. -/
inductive TordStep (s t : State) : Prop
  | other (h : t.tord = s.tord)
  | reset (n : Fin 32769) (rest : List HostEvent) (hhost : s.host = .resetTord n :: rest) (h : t.tord = TordState.reset n)
  | refused (d : BitVec 128) (h : t.tord = (raiseTord .illegalOp .none (presentTord d s)).tord)
  | ran (i : Instr) (d : BitVec 128) (rest : List HostEvent) (hu : i.unit = .tord)
      (h : exec i (presentTord d (s.withHost rest)) = .next t)

theorem tordStep_of_step {s t : State} (h : step s = .next t) : TordStep s t := by
  obtain ⟨-, hs⟩ | ⟨e, rest, hhost, ⟨i, u, hp, hs⟩ | ⟨u, hp, hs⟩⟩ := step_cases s <;> rw [hs] at h
  · cases h
    exact .other rfl
  · by_cases hu : i.unit = .tord
    · obtain ⟨d, -, hi, -⟩ | ⟨d, -, -, rfl⟩ | ⟨d, r, a, -, hi, -⟩ | ⟨w, -, -, -, rfl, -⟩ := hp
      · cases (decodeCommand_unit _ _ _ hi).symm.trans hu
      · exact .ran i d rest hu h
      · cases (decodeCommand_unit _ _ _ hi).symm.trans hu
      · cases (decodeWord_unit _ _).symm.trans hu
    · obtain ⟨-, -, -, -, htord, -⟩ := unitsTouchTheirOwnStateOnly i u t h
      obtain ⟨-, -, hkeeps, -⟩ := hp.keeps
      exact .other ((htord hu).trans (hkeeps hu))
  · cases h
    obtain ⟨d, -, -, -, rfl⟩ | ⟨d, -, -, -, rfl⟩ | ⟨d, r, a, -, -, -, rfl⟩ | ⟨-, -, rfl⟩ | ⟨b, -, rfl⟩ | ⟨n, rfl, rfl⟩ |
      ⟨dt, sid, a, -, rfl⟩ := hp
    · exact .other rfl
    · exact .refused d rfl
    · exact .other rfl
    · exact .other rfl
    · exact .other rfl
    · exact .reset n rest hhost rfl
    · exact .other rfl

/-- What a step can do to EB and its sink. -/
inductive EbStep (s t : State) : Prop
  | other (h : t.eb = s.eb) (hsink : t.sink = s.sink)
  | reset (dt : BitVec 64) (sid : BitVec 32) (a : Bool) (rest : List HostEvent)
      (hhost : s.host = .resetEb dt sid a :: rest) (h : t.eb = EbState.reset dt sid)
  | refused (d : BitVec 128) (r : Record) (a : Answer) (h : t.eb = (raiseEb .illegalOp .none (presentEb d r a s)).eb)
      (hsink : t.sink = (presentEb d r a s).sink)
  | ran (i : Instr) (d : BitVec 128) (r : Record) (a : Answer) (rest : List HostEvent) (hu : i.unit = .eb)
      (h : exec i (presentEb d r a (s.withHost rest)) = .next t)

theorem ebStep_of_step {s t : State} (h : step s = .next t) : EbStep s t := by
  obtain ⟨-, hs⟩ | ⟨e, rest, hhost, ⟨i, u, hp, hs⟩ | ⟨u, hp, hs⟩⟩ := step_cases s <;> rw [hs] at h
  · cases h
    exact .other rfl rfl
  · by_cases hu : i.unit = .eb
    · obtain ⟨d, -, hi, -⟩ | ⟨d, -, hi, -⟩ | ⟨d, r, a, -, -, rfl⟩ | ⟨w, -, -, -, rfl, -⟩ := hp
      · cases (decodeCommand_unit _ _ _ hi).symm.trans hu
      · cases (decodeCommand_unit _ _ _ hi).symm.trans hu
      · exact .ran i d r a rest hu h
      · cases (decodeWord_unit _ _).symm.trans hu
    · obtain ⟨-, -, -, -, -, heb⟩ := unitsTouchTheirOwnStateOnly i u t h
      obtain ⟨-, -, -, hkeeps⟩ := hp.keeps
      exact .other ((heb hu).1.trans (hkeeps hu).1) ((heb hu).2.trans (hkeeps hu).2)
  · cases h
    obtain ⟨d, -, -, -, rfl⟩ | ⟨d, -, -, -, rfl⟩ | ⟨d, r, a, -, -, -, rfl⟩ | ⟨-, -, rfl⟩ | ⟨b, -, rfl⟩ | ⟨n, -, rfl⟩ |
      ⟨dt, sid, a, rfl, rfl⟩ := hp
    · exact .other rfl rfl
    · exact .other rfl rfl
    · exact .refused d r a rfl rfl
    · exact .other rfl rfl
    · exact .other rfl rfl
    · exact .other rfl rfl
    · exact .reset dt sid a rest hhost rfl

/-! ## The statements about every step -/

/-- Settles O49: only a call of an absent sink has no next state. -/
theorem theBlockNeverStops : Obligations.TheBlockNeverStops := by
  unfold Obligations.TheBlockNeverStops
  intro s hsink
  have htotal : ∃ t, step s = .next t := by
    obtain ⟨-, hs⟩ | ⟨e, rest, -, ⟨i, u, hp, hs⟩ | ⟨u, -, hs⟩⟩ := step_cases s
    · exact ⟨_, hs⟩
    · obtain ⟨-, hattached, -⟩ := hp.keeps
      rw [hs]
      exact exec_total i u (hattached.trans hsink)
    · exact ⟨_, hs⟩
  obtain ⟨t, hs⟩ := htotal
  exact ⟨t, hs, step_cfg hs⟩

/-- Settles O50: a refusal and a fault of an operation set a bit beside those set before. -/
theorem faultBitsAreSticky : Obligations.FaultBitsAreSticky := by
  unfold Obligations.FaultBitsAreSticky
  intro s t hs
  constructor
  · intro hnoReset
    cases tordStep_of_step hs with
    | other h => rw [h, BitVec.and_self]
    | reset n rest hhost => exact absurd hhost (hnoReset n rest)
    | refused d h =>
      rw [h]
      exact fault_and_or _ _
    | ran i d rest hu h =>
      obtain ⟨x, rfl, -, hend⟩ := exec_tord _ _ _ h hu
      exact hend.sticky
  · intro hnoReset
    cases ebStep_of_step hs with
    | other h => rw [h, BitVec.and_self]
    | reset dt sid a rest hhost => exact absurd hhost (hnoReset dt sid a rest)
    | refused d r a h =>
      rw [h]
      exact fault_and_or _ _
    | ran i d r a rest hu h =>
      obtain ⟨x, y, rfl, -, -, -, -, hend⟩ := exec_eb _ _ _ h hu
      exact hend.sticky

/-- Settles O53: only an operation of EB calls the sink, and once at most. -/
theorem atMostOneRecordAStep : Obligations.AtMostOneRecordAStep := by
  unfold Obligations.AtMostOneRecordAStep
  intro s t hs hnoReset
  cases ebStep_of_step hs with
  | other _ hsink => exact .inl (congrArg SinkPort.trace hsink)
  | reset dt sid a rest hhost => exact absurd hhost (hnoReset dt sid a rest)
  | refused d r a _ hsink =>
    rw [hsink]
    exact .inl rfl
  | ran i d r a rest hu h =>
    obtain ⟨x, y, rfl, -, -, -, htrace, -⟩ := exec_eb _ _ _ h hu
    exact htrace

/-- Settles O56: a reset of the unit is the one step that writes its strap. -/
theorem strapsAreReadOnly : Obligations.StrapsAreReadOnly := by
  unfold Obligations.StrapsAreReadOnly
  intro s t hs
  refine ⟨step_cfg hs, fun hnoReset => ?tord, fun hnoReset => ?eb⟩
  case tord =>
    cases tordStep_of_step hs with
    | other h => exact congrArg TordState.nchan h
    | reset n rest hhost => exact absurd hhost (hnoReset n rest)
    | refused d h =>
      rw [h]
      rfl
    | ran i d rest hu h =>
      obtain ⟨x, rfl, hnchan, -⟩ := exec_tord _ _ _ h hu
      exact hnchan
  case eb =>
    cases ebStep_of_step hs with
    | other h => exact congrArg EbState.dt h
    | reset dt sid a rest hhost => exact absurd hhost (hnoReset dt sid a rest)
    | refused d r a h =>
      rw [h]
      rfl
    | ran i d r a rest hu h =>
      obtain ⟨x, y, rfl, hdt, -⟩ := exec_eb _ _ _ h hu
      exact hdt

end Sys2Proof.Machine
end

section
/-! PROOFS. What a command of EB other than `EB.WRITE` does to the accumulator and the sink, said once as a list of moves
(42_eventbuilder.md R131 to R136), and what every move keeps. -/

namespace Sys2Proof

/-- The time of an `EB.ADD`. -/
def Instr.addTime : Instr → Option (BitVec 64)
  | .ebAdd _ _ time _ => some time
  | _ => none

end Sys2Proof

namespace Sys2Proof.Machine

/-! ## The moves -/

/-- A command `i` that finds EB in `s` leaves it in the last argument. The entry `e` is the one that `i` offers. -/
inductive EbMove (i : Instr) (s : State) : State → Prop
  /-- Nothing is accumulated or sent; a frame boundary is offered in vain only under `drop`. -/
  | idle (sid : BitVec 32) (hoffer : i.offered = [] ∨ (i.isFb = true ∧ s.cfg.fbPolicy = .drop)) :
      EbMove i s (okEb (s.withEb { s.eb with sid := sid }))
  | refused (f : Status) (info : Info)
      (hcause : f = .capacity ∨
        (f = .order ∧ s.eb.isOpen = true ∧ ∃ time, i.addTime = some time ∧ time < s.eb.startTime)) :
      EbMove i s (raiseEb f info s)
  | opens (e : Entry) (hoffer : i.offered = [e]) (htime : i.addTime = some e.time) (hopen : s.eb.isOpen = false)
      (hroom : Cap.full s.cfg.ebCap s.eb.entries.length = false) :
      EbMove i s (okEb (s.withEb { s.eb with startTime := e.time, entries := s.eb.entries ++ [e], isOpen := true }))
  | appends (e : Entry) (hoffer : i.offered = [e])
      (hfits : (e.isMarker = true ∧ (s.eb.isOpen = true ∨ s.cfg.fbPolicy = .carry)) ∨
        (s.eb.isOpen = true ∧ inWindow s.eb.startTime s.eb.dt e.time))
      (hroom : Cap.full s.cfg.ebCap s.eb.entries.length = false) :
      EbMove i s (okEb (s.withEb { s.eb with entries := s.eb.entries ++ [e] }))
  | sends (hoffer : i.offered = []) (hopen : s.eb.isOpen = true) :
      EbMove i s (okEb (pushRecord (eventRecord s) (clearEvent s)))
  | sendsAndOpens (e : Entry) (hoffer : i.offered = [e]) (htime : i.addTime = some e.time) (hopen : s.eb.isOpen = true)
      (hlater : s.eb.startTime < e.time) :
      EbMove i s (okEb ((pushRecord (eventRecord s) s).withEb { s.eb with
        startTime := e.time, entries := [e], isOpen := true }))
  | sinkFails (hopen : s.eb.isOpen = true) (hanswer : s.sink.answer = .fail) :
      EbMove i s (raiseEb .sinkFail .none (pushRecord (eventRecord s) (clearEvent s)))

theorem marker_isMarker (frame : BitVec 64) : (marker frame).isMarker = true :=
  decide_eq_true rfl

theorem ebMove_of_append {i : Instr} {s : State} {e : Entry} (hoffer : i.offered = [e])
    (hfits : (e.isMarker = true ∧ (s.eb.isOpen = true ∨ s.cfg.fbPolicy = .carry)) ∨
      (s.eb.isOpen = true ∧ inWindow s.eb.startTime s.eb.dt e.time)) : EbMove i s (appendEntry e s) := by
  obtain ⟨-, h⟩ | ⟨hroom, h⟩ := appendEntry_cases e s <;> rw [h]
  · exact .refused .capacity _ (.inl rfl)
  · exact .appends e hoffer hfits hroom

theorem ebMove_of_ebAdd {dir : Dir} {chan : BitVec 15} {time : BitVec 64} {tot : BitVec 32} {s t : State}
    (h : exec (.ebAdd dir chan time tot) s = .next t) : EbMove (.ebAdd dir chan time tot) s t := by
  obtain ⟨hopen, rfl⟩ | ⟨hopen, hearly, rfl⟩ | ⟨hopen, hstart, hwindow, rfl⟩ |
    ⟨hopen, hstart, hwindow, -, ⟨-, rfl⟩ | ⟨hanswer, rfl⟩⟩ := execEbAdd_next _ _ _ _ _ _ h
  · obtain ⟨-, h⟩ | ⟨hroom, h⟩ := openEvent_cases (entryOfHit dir chan time tot) s <;> rw [h]
    · exact .refused .capacity _ (.inl rfl)
    · exact .opens _ rfl rfl hopen hroom
  · exact .refused .order _ (.inr ⟨rfl, hopen, time, rfl, BitVec.lt_def.2 hearly⟩)
  · refine ebMove_of_append rfl (.inr ⟨hopen, hstart, ?_⟩)
    exact Nat.sub_le_iff_le_add'.1 hwindow
  · refine .sendsAndOpens (entryOfHit dir chan time tot) rfl rfl hopen (BitVec.lt_def.2 ?_)
    exact Nat.lt_of_sub_pos (hwindow.trans_le' (Nat.zero_le _))
  · exact .sinkFails hopen hanswer

theorem ebMove_of_exec {i : Instr} {s t : State} (h : exec i s = .next t) (hacc : i.accumulates = true) :
    EbMove i s t := by
  cases i with
  | ebAdd dir chan time tot => exact ebMove_of_ebAdd h
  | ebFb frame =>
    obtain ⟨-, hdrop, rfl⟩ | ⟨hkept, rfl⟩ := execEbFb_next _ _ _ h
    · exact .idle s.eb.sid (.inr ⟨rfl, hdrop⟩)
    · exact ebMove_of_append rfl (.inl ⟨marker_isMarker frame, hkept⟩)
  | ebFlush =>
    obtain ⟨-, rfl⟩ | ⟨hopen, -, ⟨-, rfl⟩ | ⟨hanswer, rfl⟩⟩ := execEbFlush_next _ _ h
    · exact .idle s.eb.sid (.inl rfl)
    · exact .sends rfl hopen
    · exact .sinkFails hopen hanswer
  | ebSetsid sid =>
    cases h
    exact .idle sid (.inl rfl)
  | _ => cases hacc

/-! ## What every move keeps -/

theorem Instr.unit_of_accumulates {i : Instr} (h : i.accumulates = true) : i.unit = .eb := by
  cases i with
  | ebAdd | ebFb | ebFlush | ebSetsid => rfl
  | _ => cases h

theorem EbMove.dt {i : Instr} {s t : State} (h : EbMove i s t) : t.eb.dt = s.eb.dt := by
  cases h <;> rfl

/-- Every entry is a marker, or an event is open and the entry lies in its window. -/
def EntriesFit (x : EbState) : Prop :=
  ∀ e ∈ x.entries, e.isMarker = true ∨ (x.isOpen = true ∧ inWindow x.startTime x.dt e.time)

theorem EntriesFit.markers {x : EbState} (h : EntriesFit x) (hopen : x.isOpen = false) :
    ∀ e ∈ x.entries, e.isMarker = true :=
  fun e he => (h e he).resolve_right fun hfit => absurd (hfit.1.symm.trans hopen) (by decide)

/-- A time lies in the window that it opens. -/
theorem inWindow_self (start dt : BitVec 64) : inWindow start dt start :=
  ⟨le_rfl, Nat.le_add_right _ _⟩

theorem EntriesFit.move {i : Instr} {s t : State} (hfit : EntriesFit s.eb) (h : EbMove i s t) : EntriesFit t.eb := by
  cases h with
  | idle | refused => exact hfit
  | opens e _ _ hopen =>
    intro e' he'
    obtain he' | rfl := List.mem_append.1 he' |>.imp_right List.mem_singleton.1
    · exact .inl (hfit.markers hopen e' he')
    · exact .inr ⟨rfl, inWindow_self _ _⟩
  | appends e _ hnew =>
    intro e' he'
    obtain he' | rfl := List.mem_append.1 he' |>.imp_right List.mem_singleton.1
    · exact hfit e' he'
    · exact hnew.imp_left And.left
  | sends | sinkFails => exact fun _ => nofun
  | sendsAndOpens e =>
    intro e' he'
    obtain rfl := List.mem_singleton.1 he'
    exact .inr ⟨rfl, inWindow_self _ _⟩

end Sys2Proof.Machine
end

section
/-! PROOFS. The invariants of 10_state.md R35 unit by unit: each component of `State.Inv` speaks of TO or of EB alone, and each
unit's own operations keep its part. -/

namespace Sys2Proof.Machine

/-! ## The parts of the invariant -/

/-- The part of TO: its capacity, and the FAULT bits that TO never sets. -/
structure TordInv (p : Params) (x : TordState) : Prop where
  cap : Cap.holds p.toCap x.held
  fault : x.fault &&& 0b00110 = 0

/-- What R35 says of EB's accumulator. -/
structure EbHolds (p : Params) (x : EbState) : Prop where
  cap : Cap.holds p.ebCap x.entries.length
  fit : EntriesFit x
  opener : x.isOpen = true → ∃ pre e post, x.entries = pre ++ e :: post ∧ e.time = x.startTime ∧
    (∀ m ∈ pre, m.isMarker = true) ∧ (p.fbPolicy = .drop → pre = [])
  emptyDrop : x.isOpen = false → p.fbPolicy = .drop → x.entries = []

/-- The part of EB: its accumulator, and the FAULT bit that EB never sets. -/
structure EbInv (p : Params) (x : EbState) : Prop where
  holds : EbHolds p x
  fault : x.fault &&& 0b00001 = 0

theorem State.Inv.entriesFit {s : State} (h : s.Inv) : EntriesFit s.eb := by
  intro e he
  cases hopen : s.eb.isOpen with
  | true => exact ((h.openEvent hopen).window e he).imp_right fun hw => ⟨rfl, hw⟩
  | false =>
    cases hpolicy : s.cfg.fbPolicy with
    | drop => simp [h.emptyDrop hopen hpolicy] at he
    | carry => exact .inl (h.emptyCarry hopen hpolicy e he)

/-- The invariants, unit by unit. -/
theorem State.inv_iff (s : State) :
    s.Inv ↔ s.cfg.ok ∧ Memory.wf s ∧ TordInv s.cfg s.tord ∧ EbInv s.cfg s.eb := by
  constructor
  · intro h
    exact ⟨h.params, h.spaces, ⟨h.toCap, h.toFault⟩,
      ⟨h.ebCap, h.entriesFit, fun hopen => (h.openEvent hopen).opener, h.emptyDrop⟩, h.ebFault⟩
  · rintro ⟨hparams, hspaces, ⟨htoCap, htoFault⟩, ⟨hebCap, hfit, hopener, hdrop⟩, hebFault⟩
    refine ⟨hparams, hspaces, htoCap, hebCap, fun hopen => ⟨hopener hopen, fun e he => ?_⟩, hdrop,
      fun hopen _ => hfit.markers hopen, htoFault, hebFault⟩
    exact (hfit e he).imp_right And.right

/-! ## FAULT bits -/

theorem or_and_of_disjoint {n : Nat} (a : BitVec n) {b m : BitVec n} (h : b &&& m = 0) : (a ||| b) &&& m = a &&& m := by
  rw [BitVec.and_comm, BitVec.and_or_distrib_left, BitVec.and_comm m b, h, BitVec.and_comm m a]
  exact BitVec.or_zero

theorem TordEnd.fault_and {x y : TordState} (h : TordEnd x y) : y.fault &&& 0b00110 = x.fault &&& 0b00110 := by
  obtain ⟨-, hfault⟩ | ⟨-, hfault⟩ | ⟨-, hfault⟩ := h <;> rw [hfault]
  all_goals exact or_and_of_disjoint _ (by decide)

theorem EbEnd.fault_and {x y : EbState} (h : EbEnd x y) : y.fault &&& 0b00001 = x.fault &&& 0b00001 := by
  obtain ⟨-, hfault⟩ | ⟨-, hfault⟩ | ⟨-, hfault⟩ | ⟨-, hfault⟩ := h <;> rw [hfault]
  all_goals exact or_and_of_disjoint _ (by decide)

/-! ## Capacities -/

theorem Cap.holds_zero (c : Cap) : Cap.holds c 0 := by
  cases c with
  | inf => trivial
  | upTo m => exact m.zero_le

theorem Cap.holds_one {c : Cap} (h : c ≠ .upTo 0) : Cap.holds c 1 := by
  refine Cap.holds_succ_of_not_full c 0 ((Cap.full_eq_false_iff c 0).2 fun k hk => ?_)
  exact Nat.pos_of_ne_zero fun hzero => h (hk.trans (congrArg Cap.upTo hzero))

theorem Cap.holds_append {c : Cap} {es : List Entry} (h : Cap.full c es.length = false) (e : Entry) :
    Cap.holds c (es ++ [e]).length := by
  rw [List.length_append]
  exact Cap.holds_succ_of_not_full c es.length h

/-! ## TO -/

theorem TordInv.reset (p : Params) (n : Fin 32769) : TordInv p (TordState.reset n) := by
  have hheld : (TordState.reset n).held = 0 := heldHits_replicate _ _
  exact ⟨by rw [hheld]; exact Cap.holds_zero _, BitVec.zero_and⟩

/-- An append needs room, a merge leaves nothing, and a fault leaves the buckets. -/
theorem TordInv.exec_cap {i : Instr} {s t : State} (hcap : Cap.holds s.cfg.toCap s.tord.held) (hwf : Memory.wf s)
    (h : exec i s = .next t) (hu : i.unit = .tord) : Cap.holds s.cfg.toCap t.tord.held := by
  cases i with
  | toAdd dir chan time tot =>
    cases h
    obtain ⟨-, h⟩ | ⟨-, -, h⟩ | ⟨hc, hroom, h⟩ := addHit_cases ⟨dir, chan, time, tot⟩ s <;> rw [h]
    · exact hcap
    · exact hcap
    · have hc' : chan.toNat < s.tord.buckets.length := hwf.1.symm ▸ hc
      have hheld := heldHits_append s.tord.nchan.val s.tord.buckets chan.toNat ⟨dir, chan, time, tot⟩ hc hc'
      exact (congrArg (Cap.holds s.cfg.toCap) hheld).mpr (Cap.holds_succ_of_not_full _ _ hroom)
  | toMerge =>
    cases h
    have hheld : (mergeAll s).tord.held = 0 := heldHits_replicate _ _
    rw [hheld]
    exact Cap.holds_zero _
  | _ => cases hu

theorem TordInv.step {s t : State} (hinv : TordInv s.cfg s.tord) (hwf : Memory.wf s) (hs : step s = .next t) :
    TordInv s.cfg t.tord := by
  cases tordStep_of_step hs with
  | other h => exact h ▸ hinv
  | reset n rest _ h => exact h ▸ TordInv.reset s.cfg n
  | refused d h =>
    rw [h]
    exact ⟨hinv.cap, (or_and_of_disjoint _ (by decide)).trans hinv.fault⟩
  | ran i d rest hu h =>
    have hcap := TordInv.exec_cap (s := presentTord d (s.withHost rest)) hinv.cap hwf h hu
    obtain ⟨x, rfl, -, hend⟩ := exec_tord _ _ _ h hu
    exact ⟨hcap, hend.fault_and.trans hinv.fault⟩

/-! ## EB -/

/-- R35 speaks of four components of EB. -/
theorem EbHolds.congr {p : Params} {x y : EbState} (h : EbHolds p x) (hopen : y.isOpen = x.isOpen)
    (hstart : y.startTime = x.startTime) (hentries : y.entries = x.entries) (hdt : y.dt = x.dt) : EbHolds p y := by
  obtain ⟨hcap, hfit, hopener, hdrop⟩ := h
  refine ⟨?_, ?_, ?_, ?_⟩
  · rwa [hentries]
  · unfold EntriesFit
    rwa [hopen, hstart, hentries, hdt]
  · rwa [hopen, hstart, hentries]
  · rwa [hopen, hentries]

theorem EbHolds.empty {p : Params} {x : EbState} (hopen : x.isOpen = false) (hentries : x.entries = []) :
    EbHolds p x := by
  refine ⟨?_, ?_, fun h => ?_, fun _ _ => hentries⟩
  · rw [hentries]
    exact Cap.holds_zero _
  · unfold EntriesFit
    rw [hentries]
    exact fun _ => nofun
  · cases hopen.symm.trans h

theorem EbInv.reset (p : Params) (dt : BitVec 64) (sid : BitVec 32) : EbInv p (EbState.reset dt sid) :=
  ⟨.empty rfl rfl, BitVec.zero_and⟩

theorem EbHolds.move {i : Instr} {s t : State} (hholds : EbHolds s.cfg s.eb) (hok : s.cfg.ok) (h : EbMove i s t) :
    EbHolds s.cfg t.eb := by
  have hfit := hholds.fit.move h
  cases h with
  | idle | refused => exact hholds.congr rfl rfl rfl rfl
  | opens e _ _ hopen hroom =>
    exact ⟨Cap.holds_append hroom e, hfit,
      fun _ => ⟨s.eb.entries, e, [], rfl, rfl, hholds.fit.markers hopen, hholds.emptyDrop hopen⟩, nofun⟩
  | appends e _ hnew hroom =>
    refine ⟨Cap.holds_append hroom e, hfit, fun hopen => ?opener, fun hopen hpolicy => ?empty⟩
    case opener =>
      obtain ⟨pre, e', post, hentries, hrest⟩ := hholds.opener hopen
      refine ⟨pre, e', post ++ [e], ?_, hrest⟩
      calc s.eb.entries ++ [e]
          = (pre ++ e' :: post) ++ [e] := by rw [hentries]
        _ = pre ++ e' :: (post ++ [e]) := by simp
    case empty =>
      have hopen : s.eb.isOpen = false := hopen
      have hpolicy : s.cfg.fbPolicy = .drop := hpolicy
      simp [hopen, hpolicy] at hnew
  | sends | sinkFails => exact .empty rfl rfl
  | sendsAndOpens e =>
    exact ⟨Cap.holds_one hok.2, hfit, fun _ => ⟨[], e, [], rfl, rfl, fun _ => nofun, fun _ => rfl⟩, nofun⟩

/-- `EB.WRITE` leaves the accumulator alone; every other command makes a move. -/
theorem EbHolds.exec {i : Instr} {s t : State} (hholds : EbHolds s.cfg s.eb) (hok : s.cfg.ok) (h : exec i s = .next t)
    (hu : i.unit = .eb) : EbHolds s.cfg t.eb := by
  cases i with
  | ebAdd | ebFb | ebFlush | ebSetsid => exact hholds.move hok (ebMove_of_exec h rfl)
  | ebWrite =>
    obtain ⟨-, ⟨-, rfl⟩ | ⟨-, rfl⟩⟩ := execEbWrite_next _ _ h
    all_goals exact hholds.congr rfl rfl rfl rfl
  | _ => cases hu

theorem EbInv.step {s t : State} (hinv : EbInv s.cfg s.eb) (hok : s.cfg.ok) (hs : step s = .next t) :
    EbInv s.cfg t.eb := by
  cases ebStep_of_step hs with
  | other h => exact h ▸ hinv
  | reset dt sid a rest _ h => exact h ▸ EbInv.reset s.cfg dt sid
  | refused d r a h =>
    rw [h]
    exact ⟨hinv.holds.congr rfl rfl rfl rfl, (or_and_of_disjoint _ (by decide)).trans hinv.fault⟩
  | ran i d r a rest hu h =>
    have hpresented : EbHolds s.cfg (presentEb d r a (s.withHost rest)).eb := hinv.holds.congr rfl rfl rfl rfl
    have hholds := EbHolds.exec (s := presentEb d r a (s.withHost rest)) hpresented hok h hu
    obtain ⟨x, y, rfl, -, -, -, -, hend⟩ := exec_eb _ _ _ h hu
    exact ⟨hholds, hend.fault_and.trans hinv.fault⟩

/-! ## The whole machine -/

/-- Settles O44: the parameters stay, the data spaces keep their form, and each unit's part is kept by every step. -/
theorem everyStepKeepsTheInvariants : Obligations.EveryStepKeepsTheInvariants := by
  unfold Obligations.EveryStepKeepsTheInvariants
  intro s t hinv hs
  obtain ⟨hok, hwf, htord, heb⟩ := (State.inv_iff s).1 hinv
  rw [State.inv_iff, step_cfg hs]
  exact ⟨hok, Memory.wf_step s t hs hwf, htord.step hwf hs, heb.step hok hs⟩

/-- Settles O45: the parameters satisfy R7, and both units are as after their own resets. -/
theorem resetHasTheInvariants : Obligations.ResetHasTheInvariants := by
  unfold Obligations.ResetHasTheInvariants
  rw [State.inv_iff]
  exact ⟨Config.params.ok, Memory.wf_reset, TordInv.reset _ _, EbInv.reset _ _ _⟩

end Sys2Proof.Machine
end

section
/-! PROOFS. Runs of EB commands (42_eventbuilder.md R139, R140): each statement is a fact about one move that composes. -/

namespace Sys2Proof.Machine

/-! ## Runs -/

/-- The state in which the sink will give this answer. -/
def State.withAnswer (s : State) (a : Answer) : State :=
  s.withSink { s.sink with answer := a }

theorem runAll_cons_next {a : Answer} {i : Instr} {is : List (Answer × Instr)} {s u : State}
    (h : runAll ((a, i) :: is) s = .next u) :
    ∃ t, exec i (s.withAnswer a) = .next t ∧ runAll is t = .next u := by
  rw [runAll, ← State.withAnswer] at h
  cases hexec : exec i (s.withAnswer a) with
  | next t =>
    rw [hexec] at h
    exact ⟨t, rfl, h⟩
  | fault | refused =>
    rw [hexec] at h
    cases h

theorem addTimes_eq_filterMap (is : List (Answer × Instr)) : addTimes is = is.filterMap fun p => p.2.addTime := rfl

theorem mem_addTimes_cons {a : Answer} {i : Instr} {is : List (Answer × Instr)} {x : BitVec 64} :
    x ∈ addTimes ((a, i) :: is) ↔ i.addTime = some x ∨ x ∈ addTimes is := by
  simp only [addTimes_eq_filterMap, List.filterMap_cons]
  cases i.addTime <;> simp [eq_comm]

theorem pairwise_addTimes_cons {a : Answer} {i : Instr} {is : List (Answer × Instr)}
    (h : (addTimes ((a, i) :: is)).Pairwise (· ≤ ·)) :
    (∀ x, i.addTime = some x → ∀ y ∈ addTimes is, x ≤ y) ∧ (addTimes is).Pairwise (· ≤ ·) := by
  simp only [addTimes_eq_filterMap, List.filterMap_cons] at h ⊢
  cases htime : i.addTime with
  | none =>
    rw [htime] at h
    exact ⟨fun _ => nofun, h⟩
  | some x =>
    rw [htime] at h
    obtain ⟨hfirst, hrest⟩ := List.pairwise_cons.1 h
    exact ⟨fun y hy => Option.some.inj hy ▸ hfirst, hrest⟩

/-! ## The account of the entries -/

theorem payloadOf_append (es es' : List Entry) : payloadOf (es ++ es') = payloadOf es ++ payloadOf es' :=
  List.flatMap_append

/-- From `s` to `t` the payloads sent and the entries still held are the entries held before and then some of those offered,
in their order; all of them where `complete` holds. -/
def Accounts (s t : State) (offered : List Entry) (complete : Prop) : Prop :=
  ∃ (rs : List Record) (kept : List Entry),
    t.sink.trace = s.sink.trace ++ rs ∧
    rs.flatMap Record.payload ++ payloadOf t.eb.entries = payloadOf s.eb.entries ++ payloadOf kept ∧
    kept.Sublist offered ∧ (complete → kept = offered)

theorem Accounts.trans {s t u : State} {offered offered' : List Entry} {c c' : Prop} (h : Accounts s t offered c)
    (h' : Accounts t u offered' c') : Accounts s u (offered ++ offered') (c ∧ c') := by
  obtain ⟨rs, kept, htrace, hpayload, hsub, hall⟩ := h
  obtain ⟨rs', kept', htrace', hpayload', hsub', hall'⟩ := h'
  refine ⟨rs ++ rs', kept ++ kept', ?trace, ?payload, hsub.append hsub', fun hc => ?all⟩
  case trace => rw [htrace', htrace, List.append_assoc]
  case payload =>
    calc (rs ++ rs').flatMap Record.payload ++ payloadOf u.eb.entries
        = rs.flatMap Record.payload ++ (payloadOf t.eb.entries ++ payloadOf kept') := by
          rw [List.flatMap_append, List.append_assoc, hpayload']
      _ = payloadOf s.eb.entries ++ payloadOf (kept ++ kept') := by
          rw [← List.append_assoc, hpayload, payloadOf_append, List.append_assoc]
  case all => rw [hall hc.1, hall' hc.2]

theorem Accounts.imp {s t : State} {offered : List Entry} {c c' : Prop} (h : Accounts s t offered c) (hc : c' → c) :
    Accounts s t offered c' := by
  obtain ⟨rs, kept, htrace, hpayload, hsub, hall⟩ := h
  exact ⟨rs, kept, htrace, hpayload, hsub, hall ∘ hc⟩

theorem eventRecord_payload (s : State) : (eventRecord s).payload = payloadOf s.eb.entries := rfl

theorem fault_or_ne_zero {f : Status} (hf : f = .capacity ∨ f = .order) (a : BitVec 5) : a ||| f.bit ≠ 0 := by
  intro h
  have hbit : f.bit = 0 := (BitVec.or_eq_zero_iff.1 h).2
  obtain rfl | rfl := hf
  all_goals exact absurd hbit (by decide)

/-- R139 for one command: what it offers is kept, unless it raises a fault or `drop` discards a frame boundary. -/
theorem EbMove.accounts {i : Instr} {s t : State} (h : EbMove i s t) (hsink : s.sink.answer = .ok) :
    Accounts s t i.offered (t.eb.fault = 0 ∧ (s.cfg.fbPolicy = .carry ∨ i.isFb = false)) := by
  cases h with
  | idle sid hoffer =>
    refine ⟨[], [], (List.append_nil _).symm, (List.append_nil _).symm, List.nil_sublist _, fun hc => ?_⟩
    obtain hnone | ⟨hfb, hdrop⟩ := hoffer
    · exact hnone.symm
    · simp [hfb, hdrop] at hc
  | refused f info hcause =>
    refine ⟨[], [], (List.append_nil _).symm, (List.append_nil _).symm, List.nil_sublist _, fun hc => ?_⟩
    exact absurd hc.1 (fault_or_ne_zero (hcause.imp_right And.left) _)
  | opens e hoffer | appends e hoffer =>
    rw [hoffer]
    exact ⟨[], [e], (List.append_nil _).symm, payloadOf_append _ _, List.Sublist.refl _, fun _ => rfl⟩
  | sends hoffer =>
    rw [hoffer]
    refine ⟨[eventRecord s], [], rfl, ?_, List.Sublist.refl _, fun _ => rfl⟩
    rw [List.flatMap_singleton, eventRecord_payload]
    rfl
  | sendsAndOpens e hoffer =>
    rw [hoffer]
    refine ⟨[eventRecord s], [e], rfl, ?_, List.Sublist.refl _, fun _ => rfl⟩
    rw [List.flatMap_singleton, eventRecord_payload]
    rfl
  | sinkFails _ hanswer => exact absurd (hsink.symm.trans hanswer) (by decide)

theorem fault_sticky_of_run {is : List (Answer × Instr)} {s t : State} (hacc : ∀ p ∈ is, p.2.accumulates = true)
    (h : runAll is s = .next t) : s.eb.fault &&& t.eb.fault = s.eb.fault := by
  induction is generalizing s with
  | nil =>
    cases h
    exact BitVec.and_self
  | cons p is ih =>
    obtain ⟨m, hexec, hrun⟩ := runAll_cons_next h
    obtain ⟨hp, his⟩ := List.forall_mem_cons.1 hacc
    obtain ⟨x, y, rfl, -, -, -, -, hend⟩ := exec_eb _ _ _ hexec (Instr.unit_of_accumulates hp)
    have hfirst : s.eb.fault &&& x.fault = s.eb.fault := hend.sticky
    have hrest : x.fault &&& t.eb.fault = x.fault := ih his hrun
    rw [← hfirst, BitVec.and_assoc, hrest]

theorem accounts_of_run {is : List (Answer × Instr)} {s t : State}
    (hacc : ∀ p ∈ is, p.1 = .ok ∧ p.2.accumulates = true) (h : runAll is s = .next t) :
    Accounts s t (is.flatMap fun p => p.2.offered)
      (t.eb.fault = 0 ∧ (s.cfg.fbPolicy = .carry ∨ ∀ p ∈ is, p.2.isFb = false)) := by
  induction is generalizing s with
  | nil =>
    cases h
    exact ⟨[], [], (List.append_nil _).symm, (List.append_nil _).symm, List.Sublist.refl _, fun _ => rfl⟩
  | cons p is ih =>
    obtain ⟨m, hexec, hrun⟩ := runAll_cons_next h
    obtain ⟨⟨hok, hp⟩, his⟩ := List.forall_mem_cons.1 hacc
    have hmove : Accounts s m p.2.offered (m.eb.fault = 0 ∧ (s.cfg.fbPolicy = .carry ∨ p.2.isFb = false)) :=
      (ebMove_of_exec hexec hp).accounts hok
    have hcfg : m.cfg = s.cfg := exec_cfg (s := s.withAnswer p.1) hexec
    refine (hmove.trans (ih his hrun)).imp ?_
    rintro ⟨hfault, hfb⟩
    have hmfault : m.eb.fault = 0 := by
      have hsticky := fault_sticky_of_run (fun q hq => (his q hq).2) hrun
      rw [hfault] at hsticky
      exact hsticky.symm.trans BitVec.and_zero
    rw [List.forall_mem_cons] at hfb
    rw [hcfg]
    exact ⟨⟨hmfault, hfb.imp_right And.left⟩, hfault, hfb.imp_right And.right⟩

/-- Settles O37: the account of a run is that of its moves, one after the other. -/
theorem everyEntryLeavesOnce : Obligations.EveryEntryLeavesOnce := by
  unfold Obligations.EveryEntryLeavesOnce
  intro is s t hacc h
  obtain ⟨rs, kept, htrace, hpayload, hsub, hall⟩ := accounts_of_run hacc h
  exact ⟨rs, kept, htrace, hpayload, hsub, fun hfault hfb => hall ⟨hfault, hfb⟩⟩

/-! ## The order of time -/

/-- No time still to come is before the start of the open event. -/
def Ahead (s : State) (times : List (BitVec 64)) : Prop :=
  s.eb.isOpen = true → ∀ x ∈ times, s.eb.startTime ≤ x

/-- An event that is open after a move was open before it, or starts at the time of the command. -/
theorem EbMove.start {i : Instr} {s t : State} (h : EbMove i s t) (hopen : t.eb.isOpen = true) :
    (s.eb.isOpen = true ∧ t.eb.startTime = s.eb.startTime) ∨ i.addTime = some t.eb.startTime := by
  cases h with
  | idle | refused | appends => exact .inl ⟨hopen, rfl⟩
  | opens e _ htime | sendsAndOpens e _ htime => exact .inr htime
  | sends | sinkFails => cases hopen

theorem Ahead.move {a : Answer} {i : Instr} {is : List (Answer × Instr)} {s t : State}
    (hahead : Ahead s (addTimes ((a, i) :: is))) (hsorted : (addTimes ((a, i) :: is)).Pairwise (· ≤ ·))
    (h : EbMove i s t) : Ahead t (addTimes is) := by
  intro hopen x hx
  obtain ⟨hsopen, hstart⟩ | htime := h.start hopen
  · rw [hstart]
    exact hahead hsopen x (mem_addTimes_cons.2 (.inr hx))
  · exact (pairwise_addTimes_cons hsorted).1 _ htime x hx

/-- A command that is not early leaves the bit ORDER as it was. -/
theorem EbMove.order_bit {i : Instr} {s t : State} (h : EbMove i s t)
    (hahead : s.eb.isOpen = true → ∀ x, i.addTime = some x → s.eb.startTime ≤ x) :
    t.eb.fault &&& 0b00010 = s.eb.fault &&& 0b00010 := by
  cases h with
  | idle | opens | appends | sends | sendsAndOpens => rfl
  | refused f info hcause =>
    obtain rfl | ⟨-, hopen, time, htime, hearly⟩ := hcause
    · exact or_and_of_disjoint _ (by decide)
    · exact absurd hearly (BitVec.not_lt.2 (hahead hopen time htime))
  | sinkFails => exact or_and_of_disjoint _ (by decide)

theorem order_bit_of_run {is : List (Answer × Instr)} {s t : State} (hacc : ∀ p ∈ is, p.2.accumulates = true)
    (hsorted : (addTimes is).Pairwise (· ≤ ·)) (hahead : Ahead s (addTimes is)) (h : runAll is s = .next t) :
    t.eb.fault &&& 0b00010 = s.eb.fault &&& 0b00010 := by
  induction is generalizing s with
  | nil =>
    cases h
    rfl
  | cons p is ih =>
    obtain ⟨m, hexec, hrun⟩ := runAll_cons_next h
    obtain ⟨hp, his⟩ := List.forall_mem_cons.1 hacc
    have hmove := ebMove_of_exec hexec hp
    have hrest := ih his (pairwise_addTimes_cons hsorted).2 (Ahead.move (a := p.1) (s := s.withAnswer p.1) hahead hsorted hmove) hrun
    have hfirst := hmove.order_bit fun hopen x hx => hahead hopen x (mem_addTimes_cons.2 (.inl hx))
    exact hrest.trans hfirst

/-! ## The records sent -/

/-- A move sends the record of the open event or none. -/
theorem EbMove.trace {i : Instr} {s t : State} (h : EbMove i s t) :
    t.sink.trace = s.sink.trace ∨ (s.eb.isOpen = true ∧ t.sink.trace = s.sink.trace ++ [eventRecord s]) := by
  cases h with
  | idle | refused | opens | appends => exact .inl rfl
  | sends _ hopen | sinkFails hopen => exact .inr ⟨hopen, rfl⟩
  | sendsAndOpens _ _ _ hopen => exact .inr ⟨hopen, rfl⟩

/-- A start of the events that a run from `s` with these times may send: that of the open event, or a time of the run. -/
def Starts (s : State) (times : List (BitVec 64)) (x : BitVec 64) : Prop :=
  (s.eb.isOpen = true ∧ x = s.eb.startTime) ∨ x ∈ times

theorem Starts.of_move {a : Answer} {i : Instr} {is : List (Answer × Instr)} {s t : State} {x : BitVec 64}
    (h : EbMove i s t) (hx : Starts t (addTimes is) x) : Starts s (addTimes ((a, i) :: is)) x := by
  obtain ⟨hopen, rfl⟩ | hx := hx
  · obtain ⟨hsopen, hstart⟩ | htime := h.start hopen
    · exact .inl ⟨hsopen, hstart⟩
    · exact .inr (mem_addTimes_cons.2 (.inl htime))
  · exact .inr (mem_addTimes_cons.2 (.inr hx))

theorem Starts.ge {s : State} {times : List (BitVec 64)} {x : BitVec 64} (hx : Starts s times x)
    (hahead : Ahead s times) (hopen : s.eb.isOpen = true) : s.eb.startTime ≤ x := by
  obtain ⟨-, rfl⟩ | hx := hx
  · exact BitVec.le_refl _
  · exact hahead hopen x hx

/-- A record of an event that began at one of `starts`, each entry of it a marker or inside its window. -/
def WindowRecord (starts : BitVec 64 → Prop) (dt : BitVec 64) (r : Record) : Prop :=
  ∃ x es, starts x ∧ r.timestamp = some x ∧ r.payload = payloadOf es ∧
    ∀ e ∈ es, e.isMarker = true ∨ inWindow x dt e.time

theorem windowRecord_eventRecord {s : State} {starts : BitVec 64 → Prop} (hfit : EntriesFit s.eb)
    (hstart : starts s.eb.startTime) : WindowRecord starts s.eb.dt (eventRecord s) :=
  ⟨s.eb.startTime, s.eb.entries, hstart, rfl, rfl, fun e he => (hfit e he).imp_right And.right⟩

theorem WindowRecord.imp {starts starts' : BitVec 64 → Prop} {dt : BitVec 64} {r : Record}
    (h : WindowRecord starts dt r) (himp : ∀ x, starts x → starts' x) : WindowRecord starts' dt r := by
  obtain ⟨x, es, hx, hrest⟩ := h
  exact ⟨x, es, himp x hx, hrest⟩

/-- The timestamps do not go back. -/
abbrev NotBefore (a b : Record) : Prop :=
  ∀ x y, a.timestamp = some x → b.timestamp = some y → x ≤ y

theorem records_of_run {is : List (Answer × Instr)} {s t : State} (hacc : ∀ p ∈ is, p.2.accumulates = true)
    (hsorted : (addTimes is).Pairwise (· ≤ ·)) (hahead : Ahead s (addTimes is)) (hfit : EntriesFit s.eb)
    (h : runAll is s = .next t) :
    ∃ rs : List Record, t.sink.trace = s.sink.trace ++ rs ∧ rs.Pairwise NotBefore ∧
      ∀ r ∈ rs, WindowRecord (Starts s (addTimes is)) s.eb.dt r := by
  induction is generalizing s with
  | nil =>
    cases h
    exact ⟨[], (List.append_nil _).symm, .nil, fun _ => nofun⟩
  | cons p is ih =>
    obtain ⟨m, hexec, hrun⟩ := runAll_cons_next h
    obtain ⟨hp, his⟩ := List.forall_mem_cons.1 hacc
    have hmove := ebMove_of_exec hexec hp
    have hdt : m.eb.dt = s.eb.dt := hmove.dt
    obtain ⟨rs, htrace, hpairwise, hwindows⟩ :=
      ih his (pairwise_addTimes_cons hsorted).2 (Ahead.move (a := p.1) (s := s.withAnswer p.1) hahead hsorted hmove)
        (EntriesFit.move (s := s.withAnswer p.1) hfit hmove) hrun
    have hlater : ∀ r ∈ rs, WindowRecord (Starts s (addTimes (p :: is))) s.eb.dt r :=
      fun r hr => hdt ▸ (hwindows r hr).imp fun x hx => Starts.of_move (s := s.withAnswer p.1) hmove hx
    obtain hsent | ⟨hopen, hsent⟩ := hmove.trace
    · exact ⟨rs, htrace.trans (congrArg (· ++ rs) hsent), hpairwise, hlater⟩
    · refine ⟨eventRecord s :: rs, ?trace, .cons ?order hpairwise,
        List.forall_mem_cons.2 ⟨windowRecord_eventRecord hfit (.inl ⟨hopen, rfl⟩), hlater⟩⟩
      case trace =>
        calc t.sink.trace
            = (s.sink.trace ++ [eventRecord s]) ++ rs := htrace.trans (congrArg (· ++ rs) hsent)
          _ = s.sink.trace ++ eventRecord s :: rs := by rw [List.append_assoc, List.singleton_append]
      case order =>
        intro r hr x y hx hy
        obtain ⟨z, -, hz, hzr, -⟩ := hlater r hr
        obtain rfl : s.eb.startTime = x := Option.some.inj hx
        obtain rfl : z = y := Option.some.inj (hzr.symm.trans hy)
        exact hz.ge hahead hopen

/-- A flush that opens the next event is that of an `EB.ADD` later than the event it sends. -/
theorem EbMove.flush_and_open {i : Instr} {s t : State} {r : Record} (h : EbMove i s t)
    (htrace : t.sink.trace = s.sink.trace ++ [r]) (hopen : t.eb.isOpen = true) :
    r = eventRecord s ∧ s.eb.startTime < t.eb.startTime := by
  cases h with
  | idle | refused | opens | appends => exact absurd htrace (by simp [okEb, raiseEb])
  | sends | sinkFails => cases hopen
  | sendsAndOpens e _ _ _ hlater =>
    exact ⟨(List.singleton_inj.1 (List.append_cancel_left htrace)).symm, hlater⟩

/-- Settles O38: an Empty EB has no event that a time could precede, and markers fit any window. -/
theorem eventRecordsFollowTime : Obligations.EventRecordsFollowTime := by
  unfold Obligations.EventRecordsFollowTime
  constructor
  · intro is s t hacc hsorted hempty hmarkers h
    have hahead : Ahead s (addTimes is) := fun hopen => absurd (hopen.symm.trans hempty) (by decide)
    have hfit : EntriesFit s.eb := fun e he => .inl (hmarkers e he)
    obtain ⟨rs, htrace, hpairwise, hwindows⟩ := records_of_run hacc hsorted hahead hfit h
    refine ⟨order_bit_of_run hacc hsorted hahead h, rs, htrace, hpairwise, fun r hr => ?_⟩
    obtain ⟨x, es, -, hrecord⟩ := hwindows r hr
    exact ⟨x, es, hrecord⟩
  · intro dir chan time tot s t r hexec htrace hopen
    obtain ⟨rfl, hlater⟩ := (ebMove_of_ebAdd hexec).flush_and_open htrace hopen
    exact ⟨rfl, hlater⟩

/-! ## The hits of a merge -/

/-- The `EB.ADD` of a hit. -/
def Hit.toEbAdd (h : Hit) : Instr :=
  .ebAdd h.dir h.chan h.time h.tot

theorem addTimes_of_hits {is : List (Answer × Instr)} {hits : List Hit} (h : is.map Prod.snd = hits.map Hit.toEbAdd) :
    addTimes is = hits.map Hit.time := by
  calc addTimes is
      = (is.map Prod.snd).filterMap Instr.addTime := by
        rw [List.filterMap_map]
        exact addTimes_eq_filterMap is
    _ = hits.filterMap fun g => some g.time := by
        rw [h, List.filterMap_map]
        rfl
    _ = hits.map Hit.time := congrFun List.filterMap_eq_map' hits

theorem accumulates_of_hits {is : List (Answer × Instr)} {hits : List Hit} (h : is.map Prod.snd = hits.map Hit.toEbAdd) :
    ∀ p ∈ is, p.2.accumulates = true := by
  intro p hp
  obtain ⟨g, -, hg⟩ := List.mem_map.1 (h ▸ List.mem_map_of_mem hp)
  rw [← hg]
  rfl

/-- Settles O39: the merge is non-decreasing in time (O27), and TO's operation leaves EB Empty. -/
theorem mergedHitsRaiseNoOrder : Obligations.MergedHitsRaiseNoOrder := by
  unfold Obligations.MergedHitsRaiseNoOrder
  intro s t u is hwf hmono hempty hmerge his hrun
  obtain ⟨t', hmerge', -, -, hsorted, -⟩ := mergeContract s hwf
  obtain rfl : t' = t := Host.Outcome.next.inj (hmerge'.symm.trans hmerge)
  obtain ⟨-, -, -, -, -, hframe⟩ := unitsTouchTheirOwnStateOnly .toMerge s t' hmerge
  have heb : t'.eb = s.eb := (hframe (by decide)).1
  have hahead : Ahead t' (addTimes is) := fun hopen => absurd ((heb ▸ hopen).symm.trans hempty) (by decide)
  have htimes : (addTimes is).Pairwise (· ≤ ·) := by
    rw [addTimes_of_hits his]
    exact List.pairwise_map.2 (hsorted hmono)
  rw [order_bit_of_run (accumulates_of_hits his) htimes hahead hrun, heb]

end Sys2Proof.Machine
end

section
/-! PROOFS. The scan of the merge (41_timeorderer.md R111), calls of an absent sink (70_reset_and_hazards.md R192), and the
operand forms (30_encoding.md R67, R70, R73). -/

namespace Sys2Proof.Machine

/-! ## The scan -/

theorem IsLeastHead.chan_eq {n c d : Nat} {head : Nat → Option Hit} {g h : Hit} (hg : IsLeastHead n head c g)
    (hh : IsLeastHead n head d h) : c = d := by
  obtain ⟨hc, hcg, hgleast⟩ := hg
  obtain ⟨hd, hdh, hhleast⟩ := hh
  have := hgleast d hd h hdh
  have := hhleast c hc g hcg
  bv_omega

theorem pickHead_eq_some_iff (n : Nat) (buckets : List (List Hit)) (cur : List Nat) (c : Nat) (h : Hit) :
    pickHead n buckets cur = some (c, h) ↔ IsLeastHead n (headAt buckets cur) c h := by
  have hselect := selectsLeast_pickHead n buckets cur
  refine ⟨fun hpick => by rwa [hpick] at hselect, fun hleast => ?_⟩
  cases hpick : pickHead n buckets cur with
  | none =>
    rw [hpick] at hselect
    obtain ⟨hc, hhead, -⟩ := hleast
    cases (hselect c hc).symm.trans hhead
  | some p =>
    rw [hpick] at hselect
    rw [hleast.chan_eq hselect, hleast.eq hselect]

theorem pickHead_eq_none_iff (n : Nat) (buckets : List (List Hit)) (cur : List Nat) :
    pickHead n buckets cur = none ↔ ∀ c < n, headAt buckets cur c = none := by
  have hselect := selectsLeast_pickHead n buckets cur
  refine ⟨fun hpick => by rwa [hpick] at hselect, fun hnone => ?_⟩
  cases hpick : pickHead n buckets cur with
  | none => rfl
  | some p =>
    rw [hpick] at hselect
    obtain ⟨hc, hhead, -⟩ := hselect
    cases (hnone p.1 hc).symm.trans hhead

/-- Settles O26: the scan answers a least head where there is one, and there is one least head only. -/
theorem scanSelectsTheLeastHead : Obligations.ScanSelectsTheLeastHead := by
  unfold Obligations.ScanSelectsTheLeastHead
  exact fun n buckets cur => ⟨pickHead_eq_some_iff n buckets cur, pickHead_eq_none_iff n buckets cur⟩

/-! ## No sink -/

theorem flushThen_of_no_sink {s : State} {rest : State → State} (hsink : s.sink.attached = false) :
    flushThen s rest = .fault .noSink :=
  (sinkWrite_fault_iff _ (clearEvent s) _).2 hsink

/-- Settles O34: each of the three forms is a call of the sink. -/
theorem sinkCallsStopWithoutASink : Obligations.SinkCallsStopWithoutASink := by
  unfold Obligations.SinkCallsStopWithoutASink
  intro dir chan time tot s hsink
  refine ⟨(sinkWrite_fault_iff _ s _).2 hsink, fun hopen => ?flush, fun hopen hstart hwindow => ?add⟩
  case flush => rw [exec_ebFlush_of_open hopen, flushThen_of_no_sink hsink]
  case add => rw [exec_ebAdd_of_outside hopen hstart hwindow, flushThen_of_no_sink hsink]

/-! ## The edge-tag word -/

theorem slices_tagword (dir : Dir) (chan : BitVec 15) :
    slice (tagword dir chan) 15 1 = dir.bit ∧ slice (tagword dir chan) 0 15 = chan := by
  simp only [tagword, slice_or]
  constructor
  · rw [slice_place_same _ dir.bit _ (by decide), slice_place_apart _ chan _ _ _ (by decide)]
    exact BitVec.or_zero
  · rw [slice_place_apart _ dir.bit _ _ _ (by decide), slice_place_same _ chan _ (by decide)]
    exact BitVec.zero_or

theorem tagword_eq_sentinel_iff (dir : Dir) (chan : BitVec 15) :
    tagword dir chan = 0xFFFF ↔ dir = .trailing ∧ chan = 32767 := by
  obtain ⟨hdir, hchan⟩ := slices_tagword dir chan
  constructor
  · intro h
    rw [h] at hdir hchan
    refine ⟨?_, hchan.symm.trans (by decide)⟩
    cases dir with
    | leading => exact absurd hdir (by decide)
    | trailing => rfl
  · rintro ⟨rfl, rfl⟩
    decide

/-- Settles O40: the word's two fields, and the arm of `EB.ADD` in Empty, which no tag word is refused by. -/
theorem sentinelTagword : Obligations.SentinelTagword := by
  unfold Obligations.SentinelTagword
  constructor
  · intro dir chan
    obtain ⟨hdir, hchan⟩ := slices_tagword dir chan
    exact ⟨hdir, hchan, tagword_eq_sentinel_iff dir chan⟩
  · intro time tot s hopen hempty hcap
    have hroom : Cap.full s.cfg.ebCap s.eb.entries.length = false := by
      rw [hempty]
      exact (Cap.full_eq_false_iff _ _).2 hcap
    obtain ⟨t, hexec, -, -, -, -, -, hentries⟩ :=
      exec_ebAdd_opens (dir := .trailing) (chan := 32767) (time := time) (tot := tot) hopen hroom
    refine ⟨t, hexec, ?_⟩
    rw [hentries, hempty, entryOfHit, (tagword_eq_sentinel_iff _ _).2 ⟨rfl, rfl⟩]
    rfl

/-! ## The size of an event record -/

theorem length_payloadOf (es : List Entry) : (payloadOf es).length = 3 * es.length := by
  induction es with
  | nil => rfl
  | cons e es ih =>
    calc (payloadOf (e :: es)).length
        = 3 + (payloadOf es).length := by simp [payloadOf, Entry.fields]; omega
      _ = 3 * (e :: es).length := by rw [ih, List.length_cons]; omega

/-- An entry's tag word, time and tot are 2, 8 and 4 bytes. -/
theorem length_entryBytes (order : ByteOrder) (e : Entry) : (e.fields.flatMap (Field.bytes order)).length = 14 := by
  simp [Entry.fields, Field.bytes]

theorem length_payloadBytes (order : ByteOrder) (es : List Entry) :
    ((payloadOf es).flatMap (Field.bytes order)).length = 14 * es.length := by
  induction es with
  | nil => rfl
  | cons e es ih =>
    calc ((payloadOf (e :: es)).flatMap (Field.bytes order)).length
        = (e.fields.flatMap (Field.bytes order)).length + ((payloadOf es).flatMap (Field.bytes order)).length := by
          rw [← List.length_append, ← List.flatMap_append]
          rfl
      _ = 14 * (e :: es).length := by rw [length_entryBytes, ih, List.length_cons]; omega

/-- Settles O42: the record of a flush is the event record, under either answer of the sink. -/
theorem eventRecordHas14BytesAnEntry : Obligations.EventRecordHas14BytesAnEntry := by
  unfold Obligations.EventRecordHas14BytesAnEntry
  intro order s hopen hsink
  obtain ⟨t, hexec, htrace⟩ := exec_ebFlush_sends hopen hsink
  exact ⟨t, eventRecord s, hexec, htrace, length_payloadOf s.eb.entries, length_payloadBytes order s.eb.entries⟩

/-! ## The hit of an edge -/

/-- Settles O43: the widened fields keep their values, and the sum is exact where it fits. -/
theorem edgeToHitWidens : Obligations.EdgeToHitWidens := by
  unfold Obligations.EdgeToHitWidens
  intro base dir channel tot time
  refine ⟨fun hfits => ?fits, fun hwide => by rw [hitOfEdge, if_neg hwide.not_gt]⟩
  case fits =>
    have htime : (time.setWidth 64).toNat = time.toNat := BitVec.toNat_setWidth_of_le (by decide)
    refine ⟨_, if_pos hfits, rfl, BitVec.toNat_setWidth_of_le (by decide), BitVec.toNat_setWidth_of_le (by decide), ?_⟩
    calc (base + time.setWidth 64).toNat
        = base.toNat + (time.setWidth 64).toNat := BitVec.toNat_add_of_lt (by rwa [htime])
      _ = base.toNat + time.toNat := by rw [htime]

end Sys2Proof.Machine
end

section
/-! PROOFS. Operations of different units (20_memory.md R48 item 4) and the byte order (R43): a change of the state that a unit
neither reads nor writes may come before or after any operation of that unit. -/

namespace Sys2Proof.Machine

/-- A change of the state after an operation, where the operation ends in a next state. -/
def mapNext (g : State → State) : Host.Outcome State Fault Refusal → Host.Outcome State Fault Refusal
  | .next s => .next (g s)
  | .fault r => .fault r
  | .refused r => .refused r

/-! ## Changes beside a unit -/

/-- `g` is beside WC: it changes nothing that WC reads or writes, and does the same whatever WC writes. No unit reads the byte
order. -/
structure BesideWc (g : State → State) : Prop where
  cfg : ∀ s, ∃ o, (g s).cfg = { s.cfg with byteOrder := o }
  wc : ∀ s, (g s).wc = s.wc
  withWc : ∀ s x, (g s).withWc x = g (s.withWc x)

/-- `g` is beside TO. -/
structure BesideTord (g : State → State) : Prop where
  cfg : ∀ s, ∃ o, (g s).cfg = { s.cfg with byteOrder := o }
  tord : ∀ s, (g s).tord = s.tord
  withTord : ∀ s x, (g s).withTord x = g (s.withTord x)

/-- `g` is beside EB and its sink. -/
structure BesideEb (g : State → State) : Prop where
  cfg : ∀ s, ∃ o, (g s).cfg = { s.cfg with byteOrder := o }
  eb : ∀ s, (g s).eb = s.eb
  sink : ∀ s, (g s).sink = s.sink
  withEb : ∀ s x, (g s).withEb x = g (s.withEb x)
  withSink : ∀ s y, (g s).withSink y = g (s.withSink y)

section
variable {g : State → State} (s : State)

/-! ### WC -/

theorem BesideWc.answerDatum (hg : BesideWc g) (x : Datum) : answerDatum x (g s) = g (answerDatum x s) := by
  rw [Machine.answerDatum, hg.wc, hg.withWc, Machine.answerDatum]

theorem BesideWc.answerWord (hg : BesideWc g) (w : BitVec 64) : answerWord w (g s) = g (answerWord w s) := by
  rw [Machine.answerWord, hg.wc, hg.withWc, Machine.answerWord]

theorem BesideWc.exec (hg : BesideWc g) {i : Instr} (hu : i.unit = .wc) : exec i (g s) = mapNext g (exec i s) := by
  have htags : (g s).cfg.tags = s.cfg.tags := by
    obtain ⟨o, h⟩ := hg.cfg s
    rw [h]
  have hdatum (x : Datum) : Host.Outcome.next (Machine.answerDatum x (g s)) = mapNext g (.next (Machine.answerDatum x s)) :=
    congrArg Host.Outcome.next (hg.answerDatum s x)
  cases i with
  | wcDec w =>
    rw [Machine.exec, execWcDec, htags]
    exact hdatum _
  | wcEnc x =>
    rw [Machine.exec, execWcEnc, htags]
    exact congrArg Host.Outcome.next (hg.answerWord s _)
  | frameStart | frameSize | edgeLeading | edgeTrailing | unrecognized => exact hdatum _
  | _ => cases hu

/-! ### TO -/

theorem BesideTord.okTord (hg : BesideTord g) : okTord (g s) = g (okTord s) := by
  rw [okTord_eq, hg.tord, hg.withTord, okTord_eq]

theorem BesideTord.raiseTord (hg : BesideTord g) (f : Status) (info : Info) :
    raiseTord f info (g s) = g (raiseTord f info s) := by
  rw [raiseTord_eq, hg.tord, hg.withTord, raiseTord_eq]

theorem BesideTord.addHit (hg : BesideTord g) (h : Hit) : addHit h (g s) = g (addHit h s) := by
  have hcap : (g s).cfg.toCap = s.cfg.toCap := by
    obtain ⟨o, h⟩ := hg.cfg s
    rw [h]
  unfold Machine.addHit
  rw [hg.tord, hcap, hg.withTord, hg.okTord, hg.raiseTord, hg.raiseTord, apply_ite g, apply_ite g]

theorem BesideTord.exec (hg : BesideTord g) {i : Instr} (hu : i.unit = .tord) :
    exec i (g s) = mapNext g (exec i s) := by
  cases i with
  | toAdd dir chan time tot => exact congrArg Host.Outcome.next (hg.addHit s _)
  | toMerge =>
    rw [exec_toMerge_eq, hg.tord, hg.withTord]
    rfl
  | _ => cases hu

/-! ### EB -/

theorem BesideEb.okEb (hg : BesideEb g) : okEb (g s) = g (okEb s) := by
  rw [okEb_eq, hg.eb, hg.withEb, okEb_eq]

theorem BesideEb.raiseEb (hg : BesideEb g) (f : Status) (info : Info) : raiseEb f info (g s) = g (raiseEb f info s) := by
  rw [raiseEb_eq, hg.eb, hg.withEb, raiseEb_eq]

theorem BesideEb.pushRecord (hg : BesideEb g) (r : Record) : pushRecord r (g s) = g (pushRecord r s) := by
  rw [Machine.pushRecord, hg.sink, hg.withSink, Machine.pushRecord]

theorem BesideEb.ebCap (hg : BesideEb g) : (g s).cfg.ebCap = s.cfg.ebCap := by
  obtain ⟨o, h⟩ := hg.cfg s
  rw [h]

theorem BesideEb.appendEntry (hg : BesideEb g) (e : Entry) : appendEntry e (g s) = g (appendEntry e s) := by
  unfold Machine.appendEntry
  rw [hg.eb, hg.ebCap, hg.withEb, hg.okEb, hg.raiseEb, apply_ite g]

theorem BesideEb.openEvent (hg : BesideEb g) (e : Entry) : openEvent e (g s) = g (openEvent e s) := by
  unfold Machine.openEvent
  rw [hg.eb, hg.ebCap, hg.withEb, hg.okEb, hg.raiseEb, apply_ite g]

theorem BesideEb.sinkWrite (hg : BesideEb g) (r : Record) {rest : State → State} (hrest : ∀ t, rest (g t) = g (rest t)) :
    sinkWrite r (g s) rest = mapNext g (sinkWrite r s rest) := by
  unfold Machine.sinkWrite
  rw [hg.sink, hg.pushRecord, hg.raiseEb, hrest]
  cases s.sink.attached with
  | false => rfl
  | true => cases s.sink.answer <;> rfl

theorem BesideEb.flushThen (hg : BesideEb g) {rest : State → State} (hrest : ∀ t, rest (g t) = g (rest t)) :
    flushThen (g s) rest = mapNext g (flushThen s rest) := by
  have hrecord : eventRecord (g s) = eventRecord s := by
    obtain ⟨o, h⟩ := hg.cfg s
    rw [eventRecord, hg.eb, h]
    rfl
  have hclear : clearEvent (g s) = g (clearEvent s) := by rw [clearEvent, hg.eb, hg.withEb, clearEvent]
  rw [Machine.flushThen, hrecord, hclear]
  exact hg.sinkWrite _ _ hrest

theorem BesideEb.exec (hg : BesideEb g) {i : Instr} (hu : i.unit = .eb) : exec i (g s) = mapNext g (exec i s) := by
  cases i with
  | ebAdd dir chan time tot =>
    rw [Machine.exec, Machine.exec, execEbAdd, execEbAdd, hg.eb]
    cases addArm s.eb time with
    | opening => exact congrArg Host.Outcome.next (hg.openEvent s _)
    | early => exact congrArg Host.Outcome.next (hg.raiseEb s _ _)
    | inside => exact congrArg Host.Outcome.next (hg.appendEntry s _)
    | overflow => exact hg.flushThen s fun t => by rw [hg.eb, hg.withEb, hg.okEb]
  | ebFb frame =>
    have hpolicy : (g s).cfg.fbPolicy = s.cfg.fbPolicy := by
      obtain ⟨o, h⟩ := hg.cfg s
      rw [h]
    rw [Machine.exec, execEbFb, hg.eb, hpolicy, hg.okEb, hg.appendEntry, ← apply_ite g]
    rfl
  | ebFlush =>
    rw [Machine.exec, Machine.exec, execEbFlush, execEbFlush, hg.eb]
    cases s.eb.isOpen with
    | false => exact congrArg Host.Outcome.next (hg.okEb s)
    | true => exact hg.flushThen s hg.okEb
  | ebWrite =>
    rw [exec_ebWrite_eq, hg.eb]
    exact hg.sinkWrite s _ hg.okEb
  | ebSetsid sid =>
    rw [exec_ebSetsid_eq, hg.eb, hg.withEb, hg.okEb]
    rfl
  | _ => cases hu

end

/-! ## Operations of two units -/

section
variable (x : WcState) (y : TordState) (z : EbState) (k : SinkPort)

theorem besideTord_withWc : BesideTord (·.withWc x) :=
  ⟨fun _ => ⟨_, rfl⟩, fun _ => rfl, fun _ _ => rfl⟩

theorem besideEb_withWc : BesideEb (·.withWc x) :=
  ⟨fun _ => ⟨_, rfl⟩, fun _ => rfl, fun _ => rfl, fun _ _ => rfl, fun _ _ => rfl⟩

theorem besideWc_withTord : BesideWc (·.withTord y) :=
  ⟨fun _ => ⟨_, rfl⟩, fun _ => rfl, fun _ _ => rfl⟩

theorem besideEb_withTord : BesideEb (·.withTord y) :=
  ⟨fun _ => ⟨_, rfl⟩, fun _ => rfl, fun _ => rfl, fun _ _ => rfl, fun _ _ => rfl⟩

theorem besideWc_withEb_withSink : BesideWc fun s => (s.withEb z).withSink k :=
  ⟨fun _ => ⟨_, rfl⟩, fun _ => rfl, fun _ _ => rfl⟩

theorem besideTord_withEb_withSink : BesideTord fun s => (s.withEb z).withSink k :=
  ⟨fun _ => ⟨_, rfl⟩, fun _ => rfl, fun _ _ => rfl⟩

end

section
variable {i j : Instr} {s a b : State}

theorem commute_wc_tord (hi : i.unit = .wc) (hj : j.unit = .tord) (ha : exec i s = .next a) (hb : exec j s = .next b) :
    ∃ t, exec j a = .next t ∧ exec i b = .next t := by
  obtain ⟨x, rfl, -⟩ := exec_wc i s a ha hi
  obtain ⟨y, rfl, -⟩ := exec_tord j s b hb hj
  exact ⟨_, ((besideTord_withWc x).exec s hj).trans (congrArg _ hb), ((besideWc_withTord y).exec s hi).trans (congrArg _ ha)⟩

theorem commute_wc_eb (hi : i.unit = .wc) (hj : j.unit = .eb) (ha : exec i s = .next a) (hb : exec j s = .next b) :
    ∃ t, exec j a = .next t ∧ exec i b = .next t := by
  obtain ⟨x, rfl, -⟩ := exec_wc i s a ha hi
  obtain ⟨z, k, rfl, -⟩ := exec_eb j s b hb hj
  exact ⟨_, ((besideEb_withWc x).exec s hj).trans (congrArg _ hb),
    ((besideWc_withEb_withSink z k).exec s hi).trans (congrArg _ ha)⟩

theorem commute_tord_eb (hi : i.unit = .tord) (hj : j.unit = .eb) (ha : exec i s = .next a) (hb : exec j s = .next b) :
    ∃ t, exec j a = .next t ∧ exec i b = .next t := by
  obtain ⟨y, rfl, -⟩ := exec_tord i s a ha hi
  obtain ⟨z, k, rfl, -⟩ := exec_eb j s b hb hj
  exact ⟨_, ((besideEb_withTord y).exec s hj).trans (congrArg _ hb),
    ((besideTord_withEb_withSink z k).exec s hi).trans (congrArg _ ha)⟩

end

/-- Settles O55: what one unit's operation writes is beside the other unit. -/
theorem operationsOfTwoUnitsCommute : Obligations.OperationsOfTwoUnitsCommute := by
  unfold Obligations.OperationsOfTwoUnitsCommute
  intro i j s a b hne ha hb
  cases hi : i.unit <;> cases hj : j.unit
  case wc.wc | tord.tord | eb.eb => exact absurd (hi.trans hj.symm) hne
  case wc.tord => exact commute_wc_tord hi hj ha hb
  case wc.eb => exact commute_wc_eb hi hj ha hb
  case tord.eb => exact commute_tord_eb hi hj ha hb
  case tord.wc => exact (commute_wc_tord hj hi hb ha).imp fun _ => And.symm
  case eb.wc => exact (commute_wc_eb hj hi hb ha).imp fun _ => And.symm
  case eb.tord => exact (commute_tord_eb hj hi hb ha).imp fun _ => And.symm

/-! ## The byte order -/

/-- The state with another byte order. -/
def State.withOrder (o : ByteOrder) (s : State) : State :=
  { s with cfg := { s.cfg with byteOrder := o } }

theorem besideWc_withOrder (o : ByteOrder) : BesideWc (State.withOrder o) :=
  ⟨fun _ => ⟨o, rfl⟩, fun _ => rfl, fun _ _ => rfl⟩

theorem besideTord_withOrder (o : ByteOrder) : BesideTord (State.withOrder o) :=
  ⟨fun _ => ⟨o, rfl⟩, fun _ => rfl, fun _ _ => rfl⟩

theorem besideEb_withOrder (o : ByteOrder) : BesideEb (State.withOrder o) :=
  ⟨fun _ => ⟨o, rfl⟩, fun _ => rfl, fun _ => rfl, fun _ _ => rfl, fun _ _ => rfl⟩

/-- No instruction reads or writes the byte order. -/
theorem exec_withOrder (i : Instr) (o : ByteOrder) (s : State) :
    exec i (s.withOrder o) = mapNext (State.withOrder o) (exec i s) := by
  cases hu : i.unit with
  | wc => exact (besideWc_withOrder o).exec s hu
  | tord => exact (besideTord_withOrder o).exec s hu
  | eb => exact (besideEb_withOrder o).exec s hu

theorem sinkBytes_of_trace {s t : State} {r : Record} (hcfg : t.cfg = s.cfg)
    (htrace : t.sink.trace = s.sink.trace ++ [r]) :
    sinkBytes t = sinkBytes s ++ [r.payloadBytes s.cfg.byteOrder] := by
  rw [← sinkBytes_pushRecord]
  exact sinkBytes_congr htrace (congrArg Params.byteOrder hcfg)

theorem payloadBytes_eventRecord (order : ByteOrder) (s : State) :
    (eventRecord s).payloadBytes order = s.eb.entries.flatMap fun e =>
      valueBytes order 2 e.tagword ++ valueBytes order 8 e.time ++ valueBytes order 4 e.tot := by
  rw [Record.payloadBytes, eventRecord_payload, payloadOf, List.flatMap_assoc]
  simp only [Entry.fields, List.flatMap_cons, List.flatMap_nil, List.append_nil, Field.bytes_f16, Field.bytes_f32,
    Field.bytes_f64, List.append_assoc]

/-- Under either answer of the sink `EB.WRITE` sends the record of the port. -/
theorem exec_ebWrite_sends {s : State} (hsink : s.sink.attached = true) :
    ∃ t, exec .ebWrite s = .next t ∧ t.sink.trace = s.sink.trace ++ [s.eb.recIn] := by
  rw [exec_ebWrite_eq]
  cases hanswer : s.sink.answer with
  | ok => exact ⟨_, sinkWrite_of_ok hsink hanswer, rfl⟩
  | fail => exact ⟨_, sinkWrite_of_fail hsink hanswer, rfl⟩

/-- Settles O57: `valueBytes` in the one order makes the sink's bytes, and the assembler reads it back. -/
theorem oneByteOrderGovernsBothSides : Obligations.OneByteOrderGovernsBothSides := by
  unfold Obligations.OneByteOrderGovernsBothSides
  intro s inOrder entryBytes withOrder
  refine ⟨fun hopen hsink => ?flush, fun hsink => ?write, fun w more rest hhost hoffset hbytes => ?word,
    fun t hs => congrArg Params.byteOrder (step_cfg hs), fun i o => exec_withOrder i o s⟩
  case flush =>
    obtain ⟨t, hexec, htrace⟩ := exec_ebFlush_sends hopen hsink
    refine ⟨t, hexec, ?_⟩
    rw [sinkBytes_of_trace (exec_cfg hexec) htrace, payloadBytes_eventRecord]
    rfl
  case write =>
    obtain ⟨t, hexec, htrace⟩ := exec_ebWrite_sends hsink
    exact ⟨t, hexec, sinkBytes_of_trace (exec_cfg hexec) htrace⟩
  case word =>
    have hword : wordAt s.cfg.byteOrder s.inp.bytes s.inp.offset = some w := by
      rw [hbytes, hoffset]
      exact wordAt_valueBytes_append s.cfg.byteOrder w more
    rw [step_of_nextWord hhost hword, presentWord, State.withHost_inp, hoffset]
    exact ⟨_, rfl⟩

end Sys2Proof.Machine
end
